-- ==== Sys2Proof/Word.lean ====
section
/-! DEFINITION. The widths of the machine's data (00_scope.md R6, R9): bytes, 64-bit register values,
32-bit instruction words and register indices. -/

namespace Sys2Proof

/-- A byte of Memory is 8 bits (20_memory.md R40). -/
abbrev Byte := BitVec 8

/-- A register value and every 64-bit intermediate (00_scope.md R9); the program counter has the same width (R6, PCLEN). -/
abbrev Word := BitVec 64

/-- An instruction word (00_scope.md R6, ILEN; 30_encoding.md R60). -/
abbrev InstrWord := BitVec 32

/-- The index of a general register, 0 to 31 (10_state.md R21, R24). -/
abbrev Reg := Fin 32

end Sys2Proof
end

