-- ==== Sys2Proof/Config.lean ====
section
/-! DEFINITION. The parameters of the hardware (00_scope.md R6; 92_eei_decisions.md, "Parameters a model takes"). -/

namespace Sys2Proof

/-- The two legal values of the parameter ANDI_OP (00_scope.md R6; 42_integer_immediate.md R126). -/
inductive AndiOp where
  | and
  | or
deriving DecidableEq, Repr

/-- The four open parameters of 00_scope.md R6. UNKNOWN_IS_FATAL has one legal value, true, and so is no field. -/
structure Config where
  /-- MEM_CAPACITY: the bytes of Memory. -/
  memCapacity : Nat
  /-- MEM_FILL_BYTE: what the bytes of Memory hold that no image covers. -/
  memFill : Byte
  /-- ANDI_OP: the bitwise operation of `andi`. -/
  andiOp : AndiOp
  /-- ARITH_NARROW32: whether a written result is `sext_32` of the computed value. -/
  arithNarrow32 : Bool
deriving DecidableEq, Repr

namespace Config

/-- The defaults of the table of 00_scope.md R6. DESIGN CHOICE (the spec's own D1, D2, D9 and D10), unsafe for a
claim that rests on one of these values; log 2. -/
def default : Config where
  memCapacity := 8096
  memFill := 0x00#8
  andiOp := .and
  arithNarrow32 := false

/-- The legal values of MEM_CAPACITY: 4 to 2^63 (00_scope.md R6). Nothing of the machine enforces it; log 28. -/
def legal (c : Config) : Bool := 4 ≤ c.memCapacity && c.memCapacity ≤ 2 ^ 63

end Config

/-- INSTR_STEP: the bytes added to pc after an instruction (00_scope.md R6; 40_fetch_and_step.md R93). -/
def instrStep : Word := 4#64

end Sys2Proof
end

