-- ==== Sys2Proof/Syntax.lean ====
section
/-! DEFINITION. The 14 instructions of 00_scope.md R2 as syntax, one constructor per row of spec/opcode_table.json,
with the operands of the instruction rules (41 R110 to 44 R151) as fields. -/

namespace Sys2Proof

/-- The instructions. `imm20` is `word[31:12]`; `imm` and `uimm` are `word[31:20]`, read signed and unsigned
(30_encoding.md R65, R66); `offset` is the 21-bit immediate of 30_encoding.md R67 with its bit 0. The shifts keep
the whole 12-bit field, as their rules mask it themselves (42_integer_immediate.md R130; log 25). -/
inductive Instr where
  | lui (rd : Reg) (imm20 : BitVec 20)
  | auipc (rd : Reg) (imm20 : BitVec 20)
  | addi (rd rs1 : Reg) (imm : BitVec 12)
  | slti (rd rs1 : Reg) (imm : BitVec 12)
  | sltiu (rd rs1 : Reg) (uimm : BitVec 12)
  | xori (rd rs1 : Reg) (imm : BitVec 12)
  | ori (rd rs1 : Reg) (imm : BitVec 12)
  | andi (rd rs1 : Reg) (imm : BitVec 12)
  | slli (rd rs1 : Reg) (uimm : BitVec 12)
  | srli (rd rs1 : Reg) (uimm : BitVec 12)
  | srai (rd rs1 : Reg) (uimm : BitVec 12)
  | jal (rd : Reg) (offset : BitVec 21)
  | add (rd rs1 rs2 : Reg)
  | sub (rd rs1 rs2 : Reg)
deriving DecidableEq, Repr

/-- The names of the rows of spec/opcode_table.json. -/
inductive Mnemonic where
  | lui | auipc | addi | slti | sltiu | xori | ori | andi | slli | srli | srai | jal | add | sub
deriving DecidableEq, Repr

/-- One row of spec/opcode_table.json: `w` is an instruction of the row when `w & mask == pattern`
(30_encoding.md R70, "match / mask"). -/
structure OpcodeRow where
  mnemonic : Mnemonic
  pattern : InstrWord
  mask : InstrWord
deriving DecidableEq, Repr

namespace Instr

/-- The row an instruction belongs to. -/
def mnemonic : Instr → Mnemonic
  | .lui _ _ => .lui
  | .auipc _ _ => .auipc
  | .addi _ _ _ => .addi
  | .slti _ _ _ => .slti
  | .sltiu _ _ _ => .sltiu
  | .xori _ _ _ => .xori
  | .ori _ _ _ => .ori
  | .andi _ _ _ => .andi
  | .slli _ _ _ => .slli
  | .srli _ _ _ => .srli
  | .srai _ _ _ => .srai
  | .jal _ _ => .jal
  | .add _ _ _ => .add
  | .sub _ _ _ => .sub

/-- The destination register: every instruction has one (10_state.md R23). -/
def dest : Instr → Reg
  | .lui rd _ => rd
  | .auipc rd _ => rd
  | .addi rd _ _ => rd
  | .slti rd _ _ => rd
  | .sltiu rd _ _ => rd
  | .xori rd _ _ => rd
  | .ori rd _ _ => rd
  | .andi rd _ _ => rd
  | .slli rd _ _ => rd
  | .srli rd _ _ => rd
  | .srai rd _ _ => rd
  | .jal rd _ => rd
  | .add rd _ _ => rd
  | .sub rd _ _ => rd

/-- The registers an instruction reads (10_state.md R23). -/
def sources : Instr → List Reg
  | .lui _ _ => []
  | .auipc _ _ => []
  | .addi _ rs1 _ => [rs1]
  | .slti _ rs1 _ => [rs1]
  | .sltiu _ rs1 _ => [rs1]
  | .xori _ rs1 _ => [rs1]
  | .ori _ rs1 _ => [rs1]
  | .andi _ rs1 _ => [rs1]
  | .slli _ rs1 _ => [rs1]
  | .srli _ rs1 _ => [rs1]
  | .srai _ rs1 _ => [rs1]
  | .jal _ _ => []
  | .add _ rs1 rs2 => [rs1, rs2]
  | .sub _ rs1 rs2 => [rs1, rs2]

end Instr

end Sys2Proof
end

