-- ==== Sys2Proof/Machine/State.lean ====
section
/-! DEFINITION. The state of the machine as plain data (10_state.md R20, R34, R36), the reasons a step stops, and the
state after reset. -/

namespace Sys2Proof.Machine

/-- Memory's bytes that differ from the fill byte, as (address, byte) cells with strictly rising addresses
(`Memory.wf`); an unlisted address below MEM_CAPACITY reads as MEM_FILL_BYTE (20_memory.md R49; log 3). -/
abbrev Memory := List Host.Cell

/-- The triple (x, pc, mem) of 10_state.md R20, with the parameters of 00_scope.md R6 beside it (read only; log 1). -/
structure State where
  /-- The register file: 32 entries of 64 bits (10_state.md R20, R21). -/
  x : Vector Word 32
  /-- The program counter: a byte offset into Memory (10_state.md R25). -/
  pc : Word
  /-- Memory (10_state.md R34). -/
  mem : Memory
  /-- The parameters. No step writes them. -/
  cfg : Config
deriving DecidableEq, Repr

/-- Why a step, or an operation of the host, ends with no next state. The first constructor is no error. A condition
is its name and carries nothing (60_exceptions.md R171, D14; log 24). -/
inductive Fault where
  /-- `Halt(Sentinel)` (40_fetch_and_step.md R95, R101): raised by `step` on a fetched word 0. The NORMAL end of a run and
  not an error condition (60_exceptions.md R172); a `Fault` only because `Host.Outcome` has no fourth form (log 14).
  Safe: the spec's machine takes no step there either. -/
  | haltSentinel
  /-- OutOfBounds (60_exceptions.md R171): raised by the fetch when pc + 4 > MEM_CAPACITY and by the other operations of
  Memory beyond its capacity. Safe: the spec's machine stops too. -/
  | outOfBounds
  /-- UnknownInstruction (60_exceptions.md R171): raised by the dispatch of a word of 30_encoding.md R73. Safe: the
  spec's run ends there too (40_fetch_and_step.md R96; log 17). -/
  | unknownInstruction
  /-- InvalidRegisterIndex (60_exceptions.md R171): raised by `get_register` and `set_register` of the host on an index
  above 31; never by a step (10_state.md R24; log 26). Safe. -/
  | invalidRegisterIndex
deriving DecidableEq, Repr

/-- What the model gives no meaning to. -/
inductive Refusal where
  /-- An instruction with no meaning yet. No arm of `exec` answers it: all 14 have their meaning. Safe. -/
  | notModelled (mnemonic : String)
  /-- `load` of an image longer than Memory: it fails and no run begins (20_memory.md R41, D11; log 18). Raised by the
  host's `load` only. Safe. -/
  | imageTooLong
deriving DecidableEq, Repr

namespace State

/-- `s` with another program counter. -/
def setPc (s : State) (pc : Word) : State := { s with pc := pc }

/-- `s` with another register file. -/
def setX (s : State) (x : Vector Word 32) : State := { s with x := x }

/-- `s` with another Memory. -/
def setMem (s : State) (mem : Memory) : State := { s with mem := mem }

/-- The state right after the engine and Memory are constructed under the given parameters: every register 0 and pc 0
(70_reset_and_hazards.md R190), Memory all MEM_FILL_BYTE (R191; log 3). -/
def resetWith (cfg : Config) : State where
  x := Vector.replicate 32 0#64
  pc := 0#64
  mem := []
  cfg := cfg

/-- The state after reset, under the default parameters (log 2). No image is loaded: see log 23. -/
def reset : State := resetWith Config.default

end State

end Sys2Proof.Machine
end

