-- ==== Sys2Proof/Machine/Flags.lean ====
section
/-! DEFINITION. The hardware has no flags, condition codes or predicates (10_state.md R30): a comparison delivers 0 or 1
in a general register. The comparisons, and the operation ANDI_OP selects. -/

namespace Sys2Proof.Machine

/-- `c ? 1 : 0`, 64 bits (42_integer_immediate.md R122). -/
def truthWord (c : Bool) : Word := if c then 1#64 else 0#64

/-- `a <s b`: the signed readings compared (00_scope.md R9). -/
def lessSigned (a b : Word) : Bool := a.slt b

/-- `a <u b`: the unsigned readings compared (00_scope.md R9). -/
def lessUnsigned (a b : Word) : Bool := a.ult b

/-- The operation of `andi` (42_integer_immediate.md R126, D2; log 6). -/
def andiResult (op : AndiOp) (a b : Word) : Word :=
  match op with
  | .and => a &&& b
  | .or => a ||| b

end Sys2Proof.Machine
end

