-- ==== Sys2Proof/WellFormed.lean ====
section
/-! DEFINITION. The checks on an instruction that the types of its fields do not make: what an encoding admits. -/

namespace Sys2Proof

/-- The high seven bits of a 12-bit immediate field, the `funct7` field of the word (30_encoding.md R63, shift form). -/
def Instr.shiftFunct7 (uimm : BitVec 12) : BitVec 7 := uimm.extractLsb' 5 7

/-- `srli` has `funct7` = 0000000 and `srai` 0100000 (30_encoding.md R70); a J-type immediate "never encodes bit 0"
(30_encoding.md R67). Register fields and every other immediate take any value (30_encoding.md R72). -/
def Instr.wf : Instr → Bool
  | .lui _ _ => true
  | .auipc _ _ => true
  | .addi _ _ _ => true
  | .slti _ _ _ => true
  | .sltiu _ _ _ => true
  | .xori _ _ _ => true
  | .ori _ _ _ => true
  | .andi _ _ _ => true
  | .slli _ _ _ => true
  | .srli _ _ uimm => Instr.shiftFunct7 uimm == 0b0000000#7
  | .srai _ _ uimm => Instr.shiftFunct7 uimm == 0b0100000#7
  | .jal _ offset => offset.getLsbD 0 == false
  | .add _ _ _ => true
  | .sub _ _ _ => true

end Sys2Proof
end

