-- ==== Sys2Proof/Decode.lean ====
section
/-! DEFINITION. The decoder (30_encoding.md), total on any bytes and rejecting by name, and the encoder. -/

namespace Sys2Proof

/-! ### Byte order: little-endian (20_memory.md R45) -/

/-- The number whose base-256 digits are the given bytes, the first the least significant. -/
def leNat : List Byte → Nat
  | [] => 0
  | b :: bs => b.toNat + 256 * leNat bs

/-- The low `n` bytes of a number, least significant first. -/
def leBytes : Nat → Nat → List Byte
  | 0, _ => []
  | n + 1, v => BitVec.ofNat 8 v :: leBytes n (v / 256)

/-- Four bytes, lowest offset first, as an instruction word: the first byte holds bits [7:0] (20_memory.md R45). -/
def wordOfBytes (b : List Byte) : InstrWord := BitVec.ofNat 32 (leNat b)

/-! ### The six fields (30_encoding.md R61): total, at fixed positions, whatever the word -/

def opcodeField (w : InstrWord) : BitVec 7 := w.extractLsb' 0 7
def rdField (w : InstrWord) : Reg := (w.extractLsb' 7 5).toFin
def funct3Field (w : InstrWord) : BitVec 3 := w.extractLsb' 12 3
def rs1Field (w : InstrWord) : Reg := (w.extractLsb' 15 5).toFin
def rs2Field (w : InstrWord) : Reg := (w.extractLsb' 20 5).toFin
def funct7Field (w : InstrWord) : BitVec 7 := w.extractLsb' 25 7

/-! ### The immediate fields (30_encoding.md R63 to R67), before widening -/

/-- `word[31:12]` (R64). -/
def imm20Field (w : InstrWord) : BitVec 20 := w.extractLsb' 12 20

/-- `word[31:20]` (R65, R66). -/
def imm12Field (w : InstrWord) : BitVec 12 := w.extractLsb' 20 12

/-- `{word[31], word[19:12], word[20], word[30:21], 0}` (R67). The four positions in the word are PRESUMED, unsafe: they are
the RISC-V J-type positions, which the source does not give (93_implementation_defined.md GK1; log 10). -/
def offsetField (w : InstrWord) : BitVec 21 :=
  w.extractLsb' 31 1 ++ w.extractLsb' 12 8 ++ w.extractLsb' 20 1 ++ w.extractLsb' 21 10 ++ 0#1

/-! ### The decoder -/

/-- Why bytes are no instruction. All but the first are UnknownInstruction to the machine (30_encoding.md R73; log 30). -/
inductive DecodeError where
  /-- Fewer than 4 bytes: a fetch never delivers that (40_fetch_and_step.md R91). -/
  | truncated
  /-- An opcode that is none of the five of 30_encoding.md R69. -/
  | unknownOpcode (opcode : BitVec 7)
  /-- Opcode 0010011, funct3 101 and another funct7 than the two of 30_encoding.md R70. -/
  | unknownShift (funct7 : BitVec 7)
  /-- Opcode 0110011 and another pair than the two of 30_encoding.md R71. -/
  | unknownRegisterOp (funct3 : BitVec 3) (funct7 : BitVec 7)
deriving DecidableEq, Repr

/-- Opcode 0010011, funct3 101: all seven bits of funct7 are compared (30_encoding.md R70; 90_conflicts.md C1; log 9). -/
def decodeShiftRight (w : InstrWord) : Except DecodeError Instr :=
  if funct7Field w = 0b0000000#7 then .ok (.srli (rdField w) (rs1Field w) (imm12Field w))
  else if funct7Field w = 0b0100000#7 then .ok (.srai (rdField w) (rs1Field w) (imm12Field w))
  else .error (.unknownShift (funct7Field w))

/-- Opcode 0010011: the table of 30_encoding.md R70, all eight values of funct3. `slli` looks at no bit of
[31:25] (R72; log 8). -/
def decodeImmediate (w : InstrWord) : Except DecodeError Instr :=
  if funct3Field w = 0b000#3 then .ok (.addi (rdField w) (rs1Field w) (imm12Field w))
  else if funct3Field w = 0b001#3 then .ok (.slli (rdField w) (rs1Field w) (imm12Field w))
  else if funct3Field w = 0b010#3 then .ok (.slti (rdField w) (rs1Field w) (imm12Field w))
  else if funct3Field w = 0b011#3 then .ok (.sltiu (rdField w) (rs1Field w) (imm12Field w))
  else if funct3Field w = 0b100#3 then .ok (.xori (rdField w) (rs1Field w) (imm12Field w))
  else if funct3Field w = 0b101#3 then decodeShiftRight w
  else if funct3Field w = 0b110#3 then .ok (.ori (rdField w) (rs1Field w) (imm12Field w))
  else .ok (.andi (rdField w) (rs1Field w) (imm12Field w))

/-- Opcode 0110011: the table of 30_encoding.md R71. -/
def decodeRegister (w : InstrWord) : Except DecodeError Instr :=
  if funct3Field w = 0b000#3 ∧ funct7Field w = 0b0000000#7 then .ok (.add (rdField w) (rs1Field w) (rs2Field w))
  else if funct3Field w = 0b000#3 ∧ funct7Field w = 0b0100000#7 then .ok (.sub (rdField w) (rs1Field w) (rs2Field w))
  else .error (.unknownRegisterOp (funct3Field w) (funct7Field w))

/-- The dispatch table of 30_encoding.md R69, in the order opcode, funct3, funct7 (R80). -/
def decodeWord (w : InstrWord) : Except DecodeError Instr :=
  if opcodeField w = 0b0110111#7 then .ok (.lui (rdField w) (imm20Field w))
  else if opcodeField w = 0b0010111#7 then .ok (.auipc (rdField w) (imm20Field w))
  else if opcodeField w = 0b0010011#7 then decodeImmediate w
  else if opcodeField w = 0b1101111#7 then .ok (.jal (rdField w) (offsetField w))
  else if opcodeField w = 0b0110011#7 then decodeRegister w
  else .error (.unknownOpcode (opcodeField w))

/-- Decodes the first four bytes of a list and returns the rest with the instruction: there is one length only
(30_encoding.md R60, R77). -/
def decode : List Byte → Except DecodeError (Instr × List Byte)
  | b0 :: b1 :: b2 :: b3 :: rest =>
    match decodeWord (wordOfBytes [b0, b1, b2, b3]) with
    | .ok i => .ok (i, rest)
    | .error e => .error e
  | _ => .error .truncated

/-- The opcode map as the match and mask columns of spec/opcode_table.json give it: a second account of what
`decodeWord` accepts, written from the table and not from the prose of 30_encoding.md R69 to R71. -/
def opcodeTable : List OpcodeRow :=
  [⟨.lui, 0x00000037#32, 0x0000007F#32⟩, ⟨.auipc, 0x00000017#32, 0x0000007F#32⟩,
   ⟨.addi, 0x00000013#32, 0x0000707F#32⟩, ⟨.slli, 0x00001013#32, 0x0000707F#32⟩,
   ⟨.slti, 0x00002013#32, 0x0000707F#32⟩, ⟨.sltiu, 0x00003013#32, 0x0000707F#32⟩,
   ⟨.xori, 0x00004013#32, 0x0000707F#32⟩, ⟨.srli, 0x00005013#32, 0xFE00707F#32⟩,
   ⟨.srai, 0x40005013#32, 0xFE00707F#32⟩, ⟨.ori, 0x00006013#32, 0x0000707F#32⟩,
   ⟨.andi, 0x00007013#32, 0x0000707F#32⟩, ⟨.jal, 0x0000006F#32, 0x0000007F#32⟩,
   ⟨.add, 0x00000033#32, 0xFE00707F#32⟩, ⟨.sub, 0x40000033#32, 0xFE00707F#32⟩]

/-- Whether a word is an instruction of a row (30_encoding.md R70). -/
def OpcodeRow.accepts (r : OpcodeRow) (w : InstrWord) : Bool := w &&& r.mask == r.pattern

/-! ### The encoder, from the layouts of 30_encoding.md R63 -/

/-- The R-type layout: every field of R61 in its place. -/
def encodeR (funct7 : BitVec 7) (rs2 rs1 : Reg) (funct3 : BitVec 3) (rd : Reg) (opcode : BitVec 7) : InstrWord :=
  funct7 ++ BitVec.ofFin (w := 5) rs2 ++ BitVec.ofFin (w := 5) rs1 ++ funct3 ++ BitVec.ofFin (w := 5) rd ++ opcode

/-- The I-type layout, the shift form included. -/
def encodeI (imm : BitVec 12) (rs1 : Reg) (funct3 : BitVec 3) (rd : Reg) (opcode : BitVec 7) : InstrWord :=
  imm ++ BitVec.ofFin (w := 5) rs1 ++ funct3 ++ BitVec.ofFin (w := 5) rd ++ opcode

/-- The U-type layout. -/
def encodeU (imm20 : BitVec 20) (rd : Reg) (opcode : BitVec 7) : InstrWord :=
  imm20 ++ BitVec.ofFin (w := 5) rd ++ opcode

/-- The J-type layout: imm[20], imm[10:1], imm[11], imm[19:12] (PRESUMED with R63's J-type table, unsafe; log 10). -/
def encodeJ (offset : BitVec 21) (rd : Reg) (opcode : BitVec 7) : InstrWord :=
  offset.extractLsb' 20 1 ++ offset.extractLsb' 1 10 ++ offset.extractLsb' 11 1 ++ offset.extractLsb' 12 8 ++
    BitVec.ofFin (w := 5) rd ++ opcode

/-- The word of a well-formed instruction. -/
def encode : Instr → InstrWord
  | .lui rd imm20 => encodeU imm20 rd 0b0110111#7
  | .auipc rd imm20 => encodeU imm20 rd 0b0010111#7
  | .addi rd rs1 imm => encodeI imm rs1 0b000#3 rd 0b0010011#7
  | .slli rd rs1 uimm => encodeI uimm rs1 0b001#3 rd 0b0010011#7
  | .slti rd rs1 imm => encodeI imm rs1 0b010#3 rd 0b0010011#7
  | .sltiu rd rs1 uimm => encodeI uimm rs1 0b011#3 rd 0b0010011#7
  | .xori rd rs1 imm => encodeI imm rs1 0b100#3 rd 0b0010011#7
  | .srli rd rs1 uimm => encodeI uimm rs1 0b101#3 rd 0b0010011#7
  | .srai rd rs1 uimm => encodeI uimm rs1 0b101#3 rd 0b0010011#7
  | .ori rd rs1 imm => encodeI imm rs1 0b110#3 rd 0b0010011#7
  | .andi rd rs1 imm => encodeI imm rs1 0b111#3 rd 0b0010011#7
  | .jal rd offset => encodeJ offset rd 0b1101111#7
  | .add rd rs1 rs2 => encodeR 0b0000000#7 rs2 rs1 0b000#3 rd 0b0110011#7
  | .sub rd rs1 rs2 => encodeR 0b0100000#7 rs2 rs1 0b000#3 rd 0b0110011#7

/-- The four bytes of a word as Memory holds them, least significant first (20_memory.md R45). -/
def encodeBytes (i : Instr) : List Byte := leBytes 4 (encode i).toNat

/-! ### The host's question -/

/-- The four bytes the host's `nbits` low bits of `w` stand for, every bit above them zero. -/
def tableWordBytes (nbits w : Nat) : List Byte := leBytes 4 (w % 2 ^ nbits)

/-- The instruction the decoder reads from an instruction whose bits are `w`, numbered as spec/opcode_table.json
numbers them. -/
def decodeTableWord (nbits w : Nat) : Option Instr :=
  match decode (tableWordBytes nbits w) with
  | .ok (i, _) => some i
  | .error _ => none

end Sys2Proof
end

