-- ==== Sys2Proof/Machine/Operands.lean ====
section
/-! DEFINITION. Every operand form: the widening of the immediates to 64 bits (30_encoding.md R64 to R68), the shift
amount (42_integer_immediate.md R130) and the narrowing of a written result (00_scope.md R10). -/

namespace Sys2Proof.Machine

/-- `imm_u = sext_32({word[31:12], 0x000})` (30_encoding.md R64). -/
def immU (imm20 : BitVec 20) : Word := (imm20 ++ 0#12 : BitVec 32).signExtend 64

/-- `imm_i = sext_12(word[31:20])` (30_encoding.md R65). -/
def immI (imm : BitVec 12) : Word := imm.signExtend 64

/-- `uimm_i = zext_12(word[31:20])` (30_encoding.md R66). -/
def uimmI (uimm : BitVec 12) : Word := uimm.setWidth 64

/-- `imm_j = sext_21(...)` (30_encoding.md R67). -/
def immJ (offset : BitVec 21) : Word := offset.signExtend 64

/-- `uimm_i & 0x1f`: 0 to 31 (42_integer_immediate.md R130). -/
def shiftAmount (uimm : BitVec 12) : Nat := (uimmI uimm &&& 0x1f#64).toNat

/-- The value a register write stores: `sext_32(v)` when ARITH_NARROW32 is true, else `v` (00_scope.md R10; log 4). -/
def narrowed (cfg : Config) (v : Word) : Word :=
  if cfg.arithNarrow32 then (v.setWidth 32).signExtend 64 else v

end Sys2Proof.Machine
end

