-- ==== Sys2Proof/Machine/Ops.lean ====
section
/-! DEFINITION. The named operations over registers and Memory (00_scope.md R10; 20_memory.md), and the two ways an
instruction ends: `commit` and `raise`. -/

namespace Sys2Proof.Machine

/-! ### Registers -/

namespace State

/-- `x[i]`: 0 for i = 0, whatever the entry holds (10_state.md R22). -/
def getReg (s : State) (i : Reg) : Word := if i = 0 then 0#64 else s.x[i]

/-- `x[i] <- v`: nothing for i = 0 (10_state.md R22), else the entry holds `v`, narrowed as the parameter says
(00_scope.md R10). -/
def setReg (s : State) (i : Reg) (v : Word) : State :=
  if i = 0 then s else s.setX (s.x.set i (narrowed s.cfg v))

end State

/-! ### Memory as a list of cells -/

namespace Memory

/-- The byte at an address, unlisted ones reading as the fill byte. -/
def lookup (fill : Byte) : Memory → Nat → Byte
  | [], _ => fill
  | c :: m, a => if c.1 = a then c.2 else lookup fill m a

/-- A cell in front of a list, unless it holds the fill byte. -/
def consCell (fill : Byte) (a : Nat) (b : Byte) (m : Memory) : Memory := if b = fill then m else (a, b) :: m

/-- Stores one byte and keeps the canonical form: writing the fill byte removes the entry. -/
def store (fill : Byte) : Memory → Nat → Byte → Memory
  | [], a, b => consCell fill a b []
  | c :: m, a, b =>
    if a < c.1 then consCell fill a b (c :: m)
    else if a = c.1 then consCell fill a b m
    else c :: store fill m a b

/-- Stores bytes at consecutive addresses. -/
def storeBytes (fill : Byte) : Memory → Nat → List Byte → Memory
  | m, _, [] => m
  | m, a, b :: bs => storeBytes fill (store fill m a b) (a + 1) bs

/-- The `n` bytes from an address up. -/
def bytesAt (fill : Byte) (m : Memory) : Nat → Nat → List Byte
  | _, 0 => []
  | a, n + 1 => lookup fill m a :: bytesAt fill m (a + 1) n

/-- The canonical form: addresses strictly rising and below MEM_CAPACITY, no entry equal to the fill byte. -/
def wf (cfg : Config) : Memory → Bool
  | [] => true
  | c :: m => c.1 < cfg.memCapacity && c.2 != cfg.memFill && m.all (fun d => c.1 < d.1) && wf cfg m

end Memory

namespace State

/-- The byte of Memory at an offset; offsets from MEM_CAPACITY up do not exist (20_memory.md R40, R49). -/
def readByte (s : State) (a : Nat) : Except Fault Byte :=
  if a < s.cfg.memCapacity then .ok (s.mem.lookup s.cfg.memFill a) else .error .outOfBounds

/-- `read_window(addr)`: the bytes from `addr` to capacity (20_memory.md R42). -/
def readWindow (s : State) (a : Nat) : Except Fault (List Byte) :=
  if a < s.cfg.memCapacity then .ok (s.mem.bytesAt s.cfg.memFill a (s.cfg.memCapacity - a))
  else .error .outOfBounds

/-- `MemRead(addr, n)`: the sum is a natural number and does not wrap (20_memory.md R44; log 11). -/
def memRead (s : State) (a n : Nat) : Except Fault (List Byte) :=
  if a + n ≤ s.cfg.memCapacity then .ok (s.mem.bytesAt s.cfg.memFill a n) else .error .outOfBounds

/-- The state with bytes stored where they all fit, unchanged where they do not: what `memWrite`, `load` and the host's
placing of a word share. -/
def storeBytes (s : State) (a : Nat) (bs : List Byte) : State :=
  if a + bs.length ≤ s.cfg.memCapacity then s.setMem (s.mem.storeBytes s.cfg.memFill a bs) else s

/-- The reserved `MemWrite(addr, n, v)`: the `n` low bytes of `v`, least significant first, OutOfBounds when one lies at
or beyond capacity (20_memory.md R43, D18; log 19). No instruction calls it. -/
def memWrite (s : State) (a n v : Nat) : Host.Outcome State Fault Refusal :=
  if a + n ≤ s.cfg.memCapacity then .next (s.storeBytes a (leBytes n v)) else .fault .outOfBounds

end State

/-! ### How an instruction ends -/

/-- The end of a successful instruction: the register write and the next pc appear together (40_fetch_and_step.md R98,
R101), so no pc is seen between `dispatch_and_execute` and `advance_pc` (R99; log 22). -/
def commit (rd : Reg) (v nextPc : Word) (s : State) : Host.Outcome State Fault Refusal :=
  .next ((s.setReg rd v).setPc nextPc)

/-- `commit` with the automatic advance `pc <- pc + 4` (40_fetch_and_step.md R93). -/
def retire (rd : Reg) (v : Word) (s : State) : Host.Outcome State Fault Refusal :=
  commit rd v (s.pc + instrStep) s

/-- `raise <Condition>` (00_scope.md R10), the counterpart of taking an exception: the step ends, nothing is saved and no
state is changed, control goes to no address (60_exceptions.md R170, R175). There is no return from it (R176). -/
def raise (f : Fault) : Host.Outcome State Fault Refusal := .fault f

end Sys2Proof.Machine
end

