-- ==== Sys2Proof/Machine/IntegerImmediate.lean ====
section
/-! DEFINITION. The meanings of the register-immediate instructions (42_integer_immediate.md). -/

namespace Sys2Proof.Machine

/-- R121: `x[rd] <- x[rs1] + imm_i`. -/
def execAddi (rd rs1 : Reg) (imm : BitVec 12) (s : State) : Host.Outcome State Fault Refusal :=
  retire rd (s.getReg rs1 + immI imm) s

/-- R122: `x[rd] <- (x[rs1] <s imm_i) ? 1 : 0`. -/
def execSlti (rd rs1 : Reg) (imm : BitVec 12) (s : State) : Host.Outcome State Fault Refusal :=
  retire rd (truthWord (lessSigned (s.getReg rs1) (immI imm))) s

/-- R123: `x[rd] <- (x[rs1] <u uimm_i) ? 1 : 0`, the immediate zero-extended (90_conflicts.md C2; log 7). -/
def execSltiu (rd rs1 : Reg) (uimm : BitVec 12) (s : State) : Host.Outcome State Fault Refusal :=
  retire rd (truthWord (lessUnsigned (s.getReg rs1) (uimmI uimm))) s

/-- R124: `x[rd] <- x[rs1] ^ imm_i`. -/
def execXori (rd rs1 : Reg) (imm : BitVec 12) (s : State) : Host.Outcome State Fault Refusal :=
  retire rd (s.getReg rs1 ^^^ immI imm) s

/-- R125: `x[rd] <- x[rs1] | imm_i`. -/
def execOri (rd rs1 : Reg) (imm : BitVec 12) (s : State) : Host.Outcome State Fault Refusal :=
  retire rd (s.getReg rs1 ||| immI imm) s

/-- R126: `x[rd] <- x[rs1] & imm_i`, or `|` when ANDI_OP = OR (log 6). -/
def execAndi (rd rs1 : Reg) (imm : BitVec 12) (s : State) : Host.Outcome State Fault Refusal :=
  retire rd (andiResult s.cfg.andiOp (s.getReg rs1) (immI imm)) s

/-- R127: `x[rd] <- x[rs1] << (uimm_i & 0x1f)`, on 64 bits. -/
def execSlli (rd rs1 : Reg) (uimm : BitVec 12) (s : State) : Host.Outcome State Fault Refusal :=
  retire rd (s.getReg rs1 <<< shiftAmount uimm) s

/-- R128: `x[rd] <- x[rs1] >>u (uimm_i & 0x1f)`, zeros entering at bit 63. -/
def execSrli (rd rs1 : Reg) (uimm : BitVec 12) (s : State) : Host.Outcome State Fault Refusal :=
  retire rd (s.getReg rs1 >>> shiftAmount uimm) s

/-- R129: `x[rd] <- x[rs1] >>s (uimm_i & 0x1f)`, copies of bit 63 entering. -/
def execSrai (rd rs1 : Reg) (uimm : BitVec 12) (s : State) : Host.Outcome State Fault Refusal :=
  retire rd ((s.getReg rs1).sshiftRight (shiftAmount uimm)) s

end Sys2Proof.Machine
end

