-- ==== Sys2Proof/Machine/IntegerRegister.lean ====
section
/-! DEFINITION. The meanings of `add` and `sub` (44_integer_register.md). -/

namespace Sys2Proof.Machine

/-- R150: `x[rd] <- x[rs1] + x[rs2]`. -/
def execAdd (rd rs1 rs2 : Reg) (s : State) : Host.Outcome State Fault Refusal :=
  retire rd (s.getReg rs1 + s.getReg rs2) s

/-- R151: `x[rd] <- x[rs1] - x[rs2]`. -/
def execSub (rd rs1 rs2 : Reg) (s : State) : Host.Outcome State Fault Refusal :=
  retire rd (s.getReg rs1 - s.getReg rs2) s

end Sys2Proof.Machine
end

