-- ==== Sys2Proof/Machine/Jump.lean ====
section
/-! DEFINITION. The meaning of `jal` (43_jump.md). -/

namespace Sys2Proof.Machine

/-- R140: `x[rd] <- pc + 4; pc <- pc + imm_j`, both from the pc of the `jal` itself, modulo 2^64 (log 13). The net effect
only: the automatic advance is compensated (40_fetch_and_step.md R99). The target is not checked (R141; log 12). -/
def execJal (rd : Reg) (offset : BitVec 21) (s : State) : Host.Outcome State Fault Refusal :=
  commit rd (s.pc + instrStep) (s.pc + immJ offset) s

end Sys2Proof.Machine
end

