-- ==== Sys2Proof/Machine/UpperImmediate.lean ====
section
/-! DEFINITION. The meanings of `lui` and `auipc` (41_upper_immediate.md). -/

namespace Sys2Proof.Machine

/-- R110: `x[rd] <- imm_u`. -/
def execLui (rd : Reg) (imm20 : BitVec 20) (s : State) : Host.Outcome State Fault Refusal :=
  retire rd (immU imm20) s

/-- R111: `x[rd] <- pc + imm_u`, pc the address of this instruction. -/
def execAuipc (rd : Reg) (imm20 : BitVec 20) (s : State) : Host.Outcome State Fault Refusal :=
  retire rd (s.pc + immU imm20) s

end Sys2Proof.Machine
end

