-- ==== Sys2Proof/Machine/Engine.lean ====
section
/-! DEFINITION. The operations a step is made of (40_fetch_and_step.md R90 to R93) and the host's operations
(10_state.md R37; 20_memory.md R41; 70_reset_and_hazards.md R192). -/

namespace Sys2Proof.Machine

/-- `fetch`: the four bytes at pc, little-endian; no side effect, no alignment check (40_fetch_and_step.md R90;
20_memory.md R45, R47). -/
def fetch (s : State) : Except Fault InstrWord :=
  match s.memRead s.pc.toNat 4 with
  | .ok bytes => .ok (wordOfBytes bytes)
  | .error f => .error f

/-- `dispatch_and_execute(word)` and, on success, the `advance_pc(4)` that always follows it (40_fetch_and_step.md R92,
R93; log 22). The zero word too is UnknownInstruction here (30_encoding.md R74). -/
def dispatch (w : InstrWord) (s : State) : Host.Outcome State Fault Refusal :=
  match decodeWord w with
  | .ok i => exec i s
  | .error _ => raise .unknownInstruction

/-- What a step does with the fetched word: the sentinel test comes before the dispatch (40_fetch_and_step.md R94,
R95). -/
def runWord (w : InstrWord) (s : State) : Host.Outcome State Fault Refusal :=
  if w = 0#32 then raise .haltSentinel else dispatch w s

/-- One pass of the run loop: fetch, sentinel test, dispatch and advance (40_fetch_and_step.md R94, R101; the order of
the tests, log 16). -/
def runStep (s : State) : Host.Outcome State Fault Refusal :=
  match fetch s with
  | .ok w => runWord w s
  | .error f => raise f

/-! ### The host's operations -/

namespace State

/-- `get_register(i)` (10_state.md R37). -/
def hostGetRegister (s : State) (i : Nat) : Except Fault Word :=
  if h : i < 32 then .ok (s.getReg ⟨i, h⟩) else .error .invalidRegisterIndex

/-- `set_register(i, v)` performs `x[i] <- v` (10_state.md R37; narrowed as every such write, log 5). -/
def hostSetRegister (s : State) (i : Nat) (v : Word) : Host.Outcome State Fault Refusal :=
  if h : i < 32 then .next (s.setReg ⟨i, h⟩ v) else raise .invalidRegisterIndex

/-- The host's read of pc (10_state.md R37). -/
def hostGetPc (s : State) : Word := s.pc

/-- `load(bytes)`: the image at offsets 0 up, every other byte unchanged; an image longer than Memory is refused and no
run begins (20_memory.md R41, D11; log 18). -/
def load (s : State) (image : List Byte) : Host.Outcome State Fault Refusal :=
  if image.length ≤ s.cfg.memCapacity then .next (s.storeBytes 0 image) else .refused .imageTooLong

end State

/-- The boot of 70_reset_and_hazards.md R192: Memory and the engine constructed, the image loaded. -/
def boot (cfg : Config) (image : List Byte) : Host.Outcome State Fault Refusal :=
  (State.resetWith cfg).load image

end Sys2Proof.Machine
end

