-- ==== Sys2Proof/Machine/Step.lean ====
section
/-! DEFINITION. The step (40_fetch_and_step.md R101), and the host's placing of a word where it is fetched next. -/

namespace Sys2Proof.Machine

/-- One step of the machine. -/
def step (s : State) : Host.Outcome State Fault Refusal := runStep s

/-- `s` with the instruction's four bytes at pc (little-endian, the bits above `nbits` zero), which stands for the host's
load of a program (log 23). Where the four bytes do not fit below MEM_CAPACITY no fetch can succeed, and nothing
changes. -/
def State.withFetchWord (s : State) (nbits w : Nat) : State := s.storeBytes s.pc.toNat (tableWordBytes nbits w)

end Sys2Proof.Machine
end

