-- ==== Sys2Proof/Machine/RunLoop.lean ====
section
/-! DEFINITION. The run loop's own data and contract (40_fetch_and_step.md R94, R100, R103): the status it keeps beside
the CORE, and the end of a run. -/

namespace Sys2Proof.Machine

/-- The status of a run (40_fetch_and_step.md R100), kept by the run loop and not by the CORE (10_state.md R20; log 15). -/
inductive RunStatus where
  | running
  /-- Ended at the sentinel. -/
  | endedNormally
  /-- Ended by an error condition. -/
  | failed (condition : Fault)
  /-- No status of the spec: what a refused step would leave, and no step is refused. -/
  | refused (reason : Refusal)
deriving DecidableEq, Repr

/-- A run: the CORE's state and the run loop's status. -/
structure Run where
  cpu : State
  status : RunStatus
deriving DecidableEq, Repr

/-- The status a step that does not answer a next state leaves (40_fetch_and_step.md R95 to R97). -/
def RunStatus.ofFault : Fault → RunStatus
  | .haltSentinel => .endedNormally
  | .outOfBounds => .failed .outOfBounds
  | .unknownInstruction => .failed .unknownInstruction
  | .invalidRegisterIndex => .failed .invalidRegisterIndex

namespace Run

/-- One pass of the loop. A step that does not answer a next state ends the run with the state before it, and an ended
run takes no further step (40_fetch_and_step.md R100, D19). -/
def tick (r : Run) : Run :=
  match r.status with
  | .running =>
    match step r.cpu with
    | .next s => ⟨s, .running⟩
    | .fault f => ⟨r.cpu, RunStatus.ofFault f⟩
    | .refused c => ⟨r.cpu, .refused c⟩
  | .endedNormally => r
  | .failed _ => r
  | .refused _ => r

/-- `n` passes of the loop; the host may stop after any of them (40_fetch_and_step.md R103). -/
def ticks : Nat → Run → Run
  | 0, r => r
  | n + 1, r => ticks n (tick r)

/-- The start of a run from a booted state (40_fetch_and_step.md R100; 10_state.md R36, run status). -/
def start (s : State) : Run := ⟨s, .running⟩

end Run

end Sys2Proof.Machine
end

