-- ==== Sys2Proof/Safety.lean ====
section
/-! DEFINITION. The terms claims are made in: what an instruction leaves, and the invariant of the machine. -/

namespace Sys2Proof.Machine

/-- `t` is `s` after the one register write `x[rd] <- v`, as the machine's own reads show it: `x[0]` reads 0, `rd` other
than 0 reads the written value (narrowed when ARITH_NARROW32 is true, 00_scope.md R10), every other register, every
byte of Memory and every parameter is as before. It says nothing of pc. -/
def WritesOnly (rd : Reg) (v : Word) (s t : State) : Prop :=
  (∀ r : Reg, t.getReg r = if r = 0 then 0#64 else if r = rd then narrowed s.cfg v else s.getReg r) ∧
    (∀ a : Nat, t.readByte a = s.readByte a) ∧ t.cfg = s.cfg

/-- Two states that show the same registers. -/
def SameRegs (s t : State) : Prop := ∀ r : Reg, t.getReg r = s.getReg r

/-- Two states alike in everything but their registers. -/
def SameButRegs (s t : State) : Prop := s.pc = t.pc ∧ s.mem = t.mem ∧ s.cfg = t.cfg

/-- The invariant of a machine with legal parameters: Memory in its canonical form; entry 0 of the register file holds 0
(10_state.md R22); pc is even (10_state.md R28); and where ARITH_NARROW32 is true every register holds the sign
extension of its low 32 bits (00_scope.md R10). -/
structure StateInv (s : State) : Prop where
  legalParameters : s.cfg.legal = true
  memoryCanonical : Memory.wf s.cfg s.mem = true
  zeroEntry : s.x[0] = 0#64
  pcEven : s.pc.getLsbD 0 = false
  narrowRegs : ∀ r : Reg, narrowed s.cfg (s.getReg r) = s.getReg r

end Sys2Proof.Machine
end

