-- ==== Sys2Proof/Certificates/Slice0/Obligations.lean ====
section
/-! DEFINITION. The statements for the provers. Each docstring names the rule it formalises; where a clause rests on a
decision of the spec (D<n>), on general knowledge (GK<n>) or on a choice of the model, it says so. Every statement
holds for every value of the parameters unless it names one. -/

open Sys2Proof Sys2Proof.Machine

/-! ## Encoding and decoding -/

/-- Encoding then decoding gives back every well-formed instruction, as a word and as the first four bytes of any byte
list (30_encoding.md R60, R61, R63, R69 to R71). For `jal` it rests on the positions of GK1 (log 10), and the shifts'
12-bit operand is the model's form (log 25). -/
def Obligations.DecodeOfEncodeIsTheInstruction : Prop :=
  ∀ i : Instr, i.wf = true →
    decodeWord (encode i) = .ok i ∧ ∀ rest : List Byte, decode (encodeBytes i ++ rest) = .ok (i, rest)

/-- A word that decodes is the encoding of what it decodes to, which is well formed: no bit of an accepted word is lost
(30_encoding.md R61 to R72; the operand forms of `Instr` are the model's, log 25). -/
def Obligations.EncodeOfDecodedWordIsTheWord : Prop :=
  ∀ (w : InstrWord) (i : Instr), decodeWord w = .ok i → i.wf = true ∧ encode i = w

/-- The decoder written from the prose (opcode, then funct3, then funct7) accepts exactly the words the match and mask
columns accept, each under its mnemonic (30_encoding.md R69 to R71, R80; the exact comparison of funct7 is D5, log 9,
and slli's unread bits are D4, log 8). -/
def Obligations.DecoderAgreesWithMatchAndMask : Prop :=
  ∀ (w : InstrWord) (m : Mnemonic),
    (∃ i, decodeWord w = .ok i ∧ i.mnemonic = m) ↔
      ∃ r ∈ opcodeTable, r.mnemonic = m ∧ w &&& r.mask = r.pattern

/-- No word matches two rows of the opcode table (30_encoding.md R69 to R71). -/
def Obligations.OpcodeRowsDoNotOverlap : Prop :=
  ∀ w : InstrWord, ∀ r₁ ∈ opcodeTable, ∀ r₂ ∈ opcodeTable,
    w &&& r₁.mask = r₁.pattern → w &&& r₂.mask = r₂.pattern → r₁ = r₂

/-- A few words of the spec's worked examples and vectors decode to the instructions they stand for (the `auipc` word is the
worked example of 41_upper_immediate.md R111, the others stand in 95_test_vectors.md). The `jal` word rests on the positions of
GK1 (log 10). -/
def Obligations.WorkedExampleWordsDecode : Prop :=
  decodeWord 0x12345137#32 = .ok (.lui 2 0x12345#20) ∧
  decodeWord 0x00001097#32 = .ok (.auipc 1 0x00001#20) ∧
  decodeWord 0x00500093#32 = .ok (.addi 1 0 5#12) ∧
  decodeWord 0xFFF0B193#32 = .ok (.sltiu 3 1 0xFFF#12) ∧
  decodeWord 0x4040D193#32 = .ok (.srai 3 1 0x404#12) ∧
  decodeWord 0xDEADBEEF#32 = .ok (.jal 29 (BitVec.ofInt 21 (-150038))) ∧
  decodeWord 0x40118233#32 = .ok (.sub 4 3 1)

/-- 30_encoding.md R61: the six fields are the masked logical shifts of the table, for every word. -/
def Obligations.FieldsAreTheMaskedShifts : Prop :=
  ∀ w : InstrWord,
    (opcodeField w).toNat = w.toNat &&& 0x7f ∧
    (rdField w).val = (w.toNat >>> 7) &&& 0x1f ∧
    (funct3Field w).toNat = (w.toNat >>> 12) &&& 0x7 ∧
    (rs1Field w).val = (w.toNat >>> 15) &&& 0x1f ∧
    (rs2Field w).val = (w.toNat >>> 20) &&& 0x1f ∧
    (funct7Field w).toNat = w.toNat >>> 25

/-- The round trip of 95_test_vectors.md S1: a word built from field values by shifts gives back the same six values. -/
def Obligations.FieldsOfABuiltWordAreTheFieldsItWasBuiltFrom : Prop :=
  ∀ (funct7 : BitVec 7) (rs2 rs1 : Reg) (funct3 : BitVec 3) (rd : Reg) (opcode : BitVec 7) (w : InstrWord),
    w = BitVec.ofNat 32 (funct7.toNat <<< 25 ||| rs2.val <<< 20 ||| rs1.val <<< 15 ||| funct3.toNat <<< 12 |||
      rd.val <<< 7 ||| opcode.toNat) →
    opcodeField w = opcode ∧ rdField w = rd ∧ funct3Field w = funct3 ∧ rs1Field w = rs1 ∧ rs2Field w = rs2 ∧
      funct7Field w = funct7

/-- 30_encoding.md R64, R65, R66: the U-type immediate is the word with its low 12 bits cleared, read as a signed 32-bit
number; the signed I-type immediate is the word, read as signed, divided by 2^20 rounding down; the unsigned one is
`(word >> 20) & 0xfff`. With their ranges. -/
def Obligations.UpperAndImmediateFieldsWiden : Prop :=
  ∀ w : InstrWord,
    ((immU (imm20Field w)).toInt = (w &&& 0xFFFFF000#32).toInt ∧
      -(2 : Int) ^ 31 ≤ (immU (imm20Field w)).toInt ∧ (immU (imm20Field w)).toInt ≤ 2 ^ 31 - 4096 ∧
      (immU (imm20Field w)).toInt % 4096 = 0) ∧
    ((immI (imm12Field w)).toInt = w.toInt / 2 ^ 20 ∧
      -2048 ≤ (immI (imm12Field w)).toInt ∧ (immI (imm12Field w)).toInt ≤ 2047) ∧
    ((uimmI (imm12Field w)).toNat = (w.toNat >>> 20) &&& 0xfff ∧ (uimmI (imm12Field w)).toNat ≤ 4095)

/-- The J-type immediate is `sext_21` of the four groups in their places, is even, and lies in -1048576 to 1048574
(30_encoding.md R67). The places in the word are GK1's, PRESUMED (log 10). -/
def Obligations.JumpOffsetIsTheFourGroups : Prop :=
  ∀ w : InstrWord,
    immJ (offsetField w) =
        (BitVec.ofNat 21 (((w.toNat >>> 31) <<< 20) ||| (((w.toNat >>> 12) &&& 0xff) <<< 12) |||
          (((w.toNat >>> 20) &&& 0x1) <<< 11) ||| (((w.toNat >>> 21) &&& 0x3ff) <<< 1))).signExtend 64 ∧
      (immJ (offsetField w)).toInt % 2 = 0 ∧
      -1048576 ≤ (immJ (offsetField w)).toInt ∧ (immJ (offsetField w)).toInt ≤ 1048574

/-- Widening in two stages, first to 32 bits and then to 64, is widening in one (30_encoding.md R68, which rests on D1). -/
def Obligations.WideningInTwoStagesIsWideningInOne : Prop :=
  (∀ imm : BitVec 12, immI imm = (imm.signExtend 32).signExtend 64) ∧
  (∀ uimm : BitVec 12, uimmI uimm = (uimm.setWidth 32).setWidth 64) ∧
  (∀ offset : BitVec 21, immJ offset = (offset.signExtend 32).signExtend 64) ∧
  (∀ imm20 : BitVec 20, immU imm20 = ((imm20.setWidth 32 <<< 12 : BitVec 32)).signExtend 64)

/-- The dispatch of a word fails with UnknownInstruction exactly on the three classes of 30_encoding.md R73. That class (b)
compares all seven bits of funct7 and is the only unknown encoding of its opcode is D5 (42_integer_immediate.md R131; log 9),
and that no `slli` word is unknown, whatever its bits [31:25], is D4 (R72; log 8). -/
def Obligations.UnknownWordsAreExactlyTheThreeClasses : Prop :=
  ∀ (w : InstrWord) (s : State),
    dispatch w s = .fault .unknownInstruction ↔
      (opcodeField w ≠ 0x37#7 ∧ opcodeField w ≠ 0x17#7 ∧ opcodeField w ≠ 0x13#7 ∧ opcodeField w ≠ 0x6F#7 ∧
        opcodeField w ≠ 0x33#7) ∨
      (opcodeField w = 0x13#7 ∧ funct3Field w = 0b101#3 ∧ funct7Field w ≠ 0b0000000#7 ∧
        funct7Field w ≠ 0b0100000#7) ∨
      (opcodeField w = 0x33#7 ∧
        (funct3Field w ≠ 0b000#3 ∨ (funct7Field w ≠ 0b0000000#7 ∧ funct7Field w ≠ 0b0100000#7)))

/-- The zero word ends a run normally and, dispatched directly, is UnknownInstruction; only the exact value 0 is the
sentinel (30_encoding.md R74). -/
def Obligations.OnlyTheZeroWordIsTheSentinel : Prop :=
  ∀ (w : InstrWord) (s : State),
    dispatch 0#32 s = .fault .unknownInstruction ∧
    (runWord w s = .fault .haltSentinel ↔ w = 0#32) ∧
    (w ≠ 0#32 → opcodeField w = 0#7 → runWord w s = .fault .unknownInstruction)

/-! ## The 14 instructions

Each says which words are the instruction, that it completes from every state, what `x[rd]` becomes, where pc goes and
that nothing else changes. The value is given as integers computed exactly and then reduced, or bit by bit. That registers
are read and written at 64 bits, and that the value stored is narrowed when ARITH_NARROW32 is true (inside `WritesOnly`), is the
spec's decision D1 (00_scope.md R10, 44_integer_register.md R153; log 4). -/

/-- 41_upper_immediate.md R110. The value is its own narrowing, so ARITH_NARROW32 makes no difference here. -/
def Obligations.LuiLoadsTheUpperImmediate : Prop :=
  (∀ w : InstrWord, w &&& 0x0000007F#32 = 0x00000037#32 → decodeWord w = .ok (.lui (rdField w) (imm20Field w))) ∧
  ∀ (rd : Reg) (imm20 : BitVec 20) (s : State), ∃ t, exec (.lui rd imm20) s = .next t ∧
    WritesOnly rd (BitVec.ofInt 64 (imm20.toInt * 4096)) s t ∧ t.pc = s.pc + 4#64

/-- 41_upper_immediate.md R111: pc is the address of the `auipc`, and the sum is modulo 2^64 (D1, D8; log 4, log 13). -/
def Obligations.AuipcAddsTheUpperImmediateToPc : Prop :=
  (∀ w : InstrWord, w &&& 0x0000007F#32 = 0x00000017#32 → decodeWord w = .ok (.auipc (rdField w) (imm20Field w))) ∧
  ∀ (rd : Reg) (imm20 : BitVec 20) (s : State), ∃ t, exec (.auipc rd imm20) s = .next t ∧
    WritesOnly rd (BitVec.ofInt 64 (s.pc.toNat + imm20.toInt * 4096)) s t ∧ t.pc = s.pc + 4#64

/-- 42_integer_immediate.md R121; the width, the wrap and the narrowing are D1's (R120, R153, 00_scope.md R10; log 4). -/
def Obligations.AddiAddsTheSignExtendedImmediate : Prop :=
  (∀ w : InstrWord, w &&& 0x0000707F#32 = 0x00000013#32 →
    decodeWord w = .ok (.addi (rdField w) (rs1Field w) (imm12Field w))) ∧
  ∀ (rd rs1 : Reg) (imm : BitVec 12) (s : State), ∃ t, exec (.addi rd rs1 imm) s = .next t ∧
    WritesOnly rd (BitVec.ofInt 64 ((s.getReg rs1).toInt + imm.toInt)) s t ∧ t.pc = s.pc + 4#64

/-- 42_integer_immediate.md R122; that the compare sees the whole 64-bit register, whatever ARITH_NARROW32, is D1's
(R120; log 4). -/
def Obligations.SltiComparesSigned : Prop :=
  (∀ w : InstrWord, w &&& 0x0000707F#32 = 0x00002013#32 →
    decodeWord w = .ok (.slti (rdField w) (rs1Field w) (imm12Field w))) ∧
  ∀ (rd rs1 : Reg) (imm : BitVec 12) (s : State), ∃ t, exec (.slti rd rs1 imm) s = .next t ∧
    WritesOnly rd (if (s.getReg rs1).toInt < imm.toInt then 1#64 else 0#64) s t ∧ t.pc = s.pc + 4#64

/-- 42_integer_immediate.md R123: the immediate is zero-extended (C2; log 7) and the register is read as an unsigned 64-bit
number (D3; log 4). -/
def Obligations.SltiuComparesUnsignedWithTheZeroExtendedField : Prop :=
  (∀ w : InstrWord, w &&& 0x0000707F#32 = 0x00003013#32 →
    decodeWord w = .ok (.sltiu (rdField w) (rs1Field w) (imm12Field w))) ∧
  ∀ (rd rs1 : Reg) (uimm : BitVec 12) (s : State), ∃ t, exec (.sltiu rd rs1 uimm) s = .next t ∧
    WritesOnly rd (if (s.getReg rs1).toNat < uimm.toNat then 1#64 else 0#64) s t ∧ t.pc = s.pc + 4#64

/-- 42_integer_immediate.md R124, bit by bit: bits 63 to 11 of the immediate are its bit 11. The width and the narrowing are
D1's (R120, 00_scope.md R10; log 4). -/
def Obligations.XoriFlipsTheBitsOfTheSignExtendedImmediate : Prop :=
  (∀ w : InstrWord, w &&& 0x0000707F#32 = 0x00004013#32 →
    decodeWord w = .ok (.xori (rdField w) (rs1Field w) (imm12Field w))) ∧
  ∀ (rd rs1 : Reg) (imm : BitVec 12) (s : State), ∃ t v, exec (.xori rd rs1 imm) s = .next t ∧
    (∀ k < 64, v.getLsbD k = ((s.getReg rs1).getLsbD k ^^ imm.getLsbD (min k 11))) ∧
    WritesOnly rd v s t ∧ t.pc = s.pc + 4#64

/-- 42_integer_immediate.md R125, bit by bit; the width and the narrowing are D1's (R120, 00_scope.md R10; log 4). -/
def Obligations.OriSetsTheBitsOfTheSignExtendedImmediate : Prop :=
  (∀ w : InstrWord, w &&& 0x0000707F#32 = 0x00006013#32 →
    decodeWord w = .ok (.ori (rdField w) (rs1Field w) (imm12Field w))) ∧
  ∀ (rd rs1 : Reg) (imm : BitVec 12) (s : State), ∃ t v, exec (.ori rd rs1 imm) s = .next t ∧
    (∀ k < 64, v.getLsbD k = ((s.getReg rs1).getLsbD k || imm.getLsbD (min k 11))) ∧
    WritesOnly rd v s t ∧ t.pc = s.pc + 4#64

/-- 42_integer_immediate.md R126, bit by bit, for both values of ANDI_OP (D2; log 6); with OR, `andi` answers what `ori`
answers. The width and the narrowing are D1's (R120, 00_scope.md R10; log 4). -/
def Obligations.AndiFollowsAndiOp : Prop :=
  (∀ w : InstrWord, w &&& 0x0000707F#32 = 0x00007013#32 →
    decodeWord w = .ok (.andi (rdField w) (rs1Field w) (imm12Field w))) ∧
  ∀ (rd rs1 : Reg) (imm : BitVec 12) (s : State),
    (∃ t v, exec (.andi rd rs1 imm) s = .next t ∧
      (s.cfg.andiOp = .and → ∀ k < 64, v.getLsbD k = ((s.getReg rs1).getLsbD k && imm.getLsbD (min k 11))) ∧
      (s.cfg.andiOp = .or → ∀ k < 64, v.getLsbD k = ((s.getReg rs1).getLsbD k || imm.getLsbD (min k 11))) ∧
      WritesOnly rd v s t ∧ t.pc = s.pc + 4#64) ∧
    (s.cfg.andiOp = .or → exec (.andi rd rs1 imm) s = exec (.ori rd rs1 imm) s)

/-- 42_integer_immediate.md R127 and R130: `(unsigned(a) * 2^n) mod 2^64` with n the field modulo 32; bits [31:25] of the
word neither select nor matter (30_encoding.md R72, D4, log 8; the width of the shift is D1 and D3, log 4). -/
def Obligations.SlliMultipliesByAPowerOfTwo : Prop :=
  (∀ w : InstrWord, w &&& 0x0000707F#32 = 0x00001013#32 →
    decodeWord w = .ok (.slli (rdField w) (rs1Field w) (imm12Field w))) ∧
  ∀ (rd rs1 : Reg) (uimm : BitVec 12) (s : State), ∃ t, exec (.slli rd rs1 uimm) s = .next t ∧
    WritesOnly rd (BitVec.ofNat 64 ((s.getReg rs1).toNat * 2 ^ (uimm.toNat % 32))) s t ∧ t.pc = s.pc + 4#64

/-- 42_integer_immediate.md R128, with the value of R130: `floor(unsigned(a) / 2^n)` on 64 bits (D1, D3; log 4). -/
def Obligations.SrliDividesUnsigned : Prop :=
  (∀ w : InstrWord, w &&& 0xFE00707F#32 = 0x00005013#32 →
    decodeWord w = .ok (.srli (rdField w) (rs1Field w) (imm12Field w)) ∧ (imm12Field w).toNat < 32) ∧
  ∀ (rd rs1 : Reg) (uimm : BitVec 12) (s : State), ∃ t, exec (.srli rd rs1 uimm) s = .next t ∧
    WritesOnly rd (BitVec.ofNat 64 ((s.getReg rs1).toNat / 2 ^ (uimm.toNat % 32))) s t ∧ t.pc = s.pc + 4#64

/-- 42_integer_immediate.md R129, with the value of R130: `floor(signed(a) / 2^n)` on 64 bits (D1, D3; log 4); the field is
0x400 and the amount. -/
def Obligations.SraiDividesSigned : Prop :=
  (∀ w : InstrWord, w &&& 0xFE00707F#32 = 0x40005013#32 →
    decodeWord w = .ok (.srai (rdField w) (rs1Field w) (imm12Field w)) ∧
      (imm12Field w).toNat = 0x400 + (imm12Field w).toNat % 32) ∧
  ∀ (rd rs1 : Reg) (uimm : BitVec 12) (s : State), ∃ t, exec (.srai rd rs1 uimm) s = .next t ∧
    WritesOnly rd (BitVec.ofInt 64 ((s.getReg rs1).toInt / 2 ^ (uimm.toNat % 32))) s t ∧ t.pc = s.pc + 4#64

/-- 43_jump.md R140 and 40_fetch_and_step.md R99: the link is pc + 4 and pc becomes the target, not the target plus 4, all
modulo 2^64 (D8; log 13); the target is not checked (R141, D7; log 12). The offset's places in the word are GK1's (log 10), the
narrowing of the link is D1's (log 4). -/
def Obligations.JalLinksAndJumps : Prop :=
  (∀ w : InstrWord, w &&& 0x0000007F#32 = 0x0000006F#32 → decodeWord w = .ok (.jal (rdField w) (offsetField w))) ∧
  ∀ (rd : Reg) (offset : BitVec 21) (s : State), ∃ t, exec (.jal rd offset) s = .next t ∧
    WritesOnly rd (BitVec.ofNat 64 (s.pc.toNat + 4)) s t ∧ t.pc = BitVec.ofInt 64 (s.pc.toNat + offset.toInt)

/-- 44_integer_register.md R150; the width, the wrap and the narrowing are D1's (R153, 00_scope.md R10; log 4). -/
def Obligations.AddAddsTwoRegisters : Prop :=
  (∀ w : InstrWord, w &&& 0xFE00707F#32 = 0x00000033#32 →
    decodeWord w = .ok (.add (rdField w) (rs1Field w) (rs2Field w))) ∧
  ∀ (rd rs1 rs2 : Reg) (s : State), ∃ t, exec (.add rd rs1 rs2) s = .next t ∧
    WritesOnly rd (BitVec.ofInt 64 ((s.getReg rs1).toInt + (s.getReg rs2).toInt)) s t ∧ t.pc = s.pc + 4#64

/-- 44_integer_register.md R151; the width, the wrap and the narrowing are D1's (R153, 00_scope.md R10; log 4). -/
def Obligations.SubSubtractsTheSecondRegister : Prop :=
  (∀ w : InstrWord, w &&& 0xFE00707F#32 = 0x40000033#32 →
    decodeWord w = .ok (.sub (rdField w) (rs1Field w) (rs2Field w))) ∧
  ∀ (rd rs1 rs2 : Reg) (s : State), ∃ t, exec (.sub rd rs1 rs2) s = .next t ∧
    WritesOnly rd (BitVec.ofInt 64 ((s.getReg rs1).toInt - (s.getReg rs2).toInt)) s t ∧ t.pc = s.pc + 4#64

/-! ## Rules over all instructions -/

/-- Every one of the 14 instructions completes from every state, writes register rd and no other, writes no byte of
Memory and no parameter, and advances pc by 4 unless it is `jal` (10_state.md R23, R27; 60_exceptions.md R171, "none of the
14 instructions raises any condition"; 40_fetch_and_step.md R98). That pc arithmetic wraps is D8 (log 13), the narrowing of the
written value D1 (log 4), and a write discarded for rd = 0 with all else done D26 (log 21). -/
def Obligations.EveryInstructionCompletesAndWritesOnlyItsDestination : Prop :=
  ∀ (i : Instr) (s : State), ∃ t v, exec i s = .next t ∧ WritesOnly i.dest v s t ∧ t.mem = s.mem ∧
    t.pc = match i with
      | .jal _ offset => s.pc + immJ offset
      | .lui _ _ | .auipc _ _ | .addi _ _ _ | .slti _ _ _ | .sltiu _ _ _ | .xori _ _ _ | .ori _ _ _ | .andi _ _ _
      | .slli _ _ _ | .srli _ _ _ | .srai _ _ _ | .add _ _ _ | .sub _ _ _ => s.pc + 4#64

/-- The value an instruction writes and the pc it leaves depend on no register but its sources, read as they were before
the instruction (10_state.md R23, whose "before" is D25; log 29). -/
def Obligations.ResultDependsOnSourceRegistersOnly : Prop :=
  ∀ (i : Instr) (s s' : State), SameButRegs s s' → (∀ r ∈ i.sources, s.getReg r = s'.getReg r) →
    ∃ t t', exec i s = .next t ∧ exec i s' = .next t' ∧ t.getReg i.dest = t'.getReg i.dest ∧ t.pc = t'.pc

/-- Register 0 reads 0 in every state, a write to it changes nothing, and an instruction whose rd is 0 still does
everything else (10_state.md R22; the last clause is D26, log 21). -/
def Obligations.RegisterZeroIsHardWired : Prop :=
  (∀ s : State, s.getReg 0 = 0#64) ∧
  (∀ (s : State) (v : Word), s.setReg 0 v = s) ∧
  ∀ (i : Instr) (s : State), i.dest = 0 → ∃ t, exec i s = .next t ∧ SameRegs s t ∧ t.x = s.x ∧
    (∀ a, t.readByte a = s.readByte a) ∧ (∀ rd o, i = .jal rd o → t.pc = s.pc + immJ o) ∧
    ((∀ rd o, i ≠ .jal rd o) → t.pc = s.pc + 4#64)

/-- `x[i] <- v` stores `v`, or its low 32 bits read as a signed number when ARITH_NARROW32 is true (00_scope.md R10, D1;
log 4). -/
def Obligations.RegisterWritesNarrowAsTheParameterSays : Prop :=
  ∀ (s : State) (i : Reg) (v : Word), i ≠ 0 →
    (s.cfg.arithNarrow32 = false → (s.setReg i v).getReg i = v) ∧
    (s.cfg.arithNarrow32 = true → (s.setReg i v).getReg i = BitVec.ofInt 64 (v.toInt.bmod (2 ^ 32))) ∧
    (∀ r, r ≠ i → (s.setReg i v).getReg r = s.getReg r) ∧
    (s.setReg i v).pc = s.pc ∧ (s.setReg i v).mem = s.mem ∧ (s.setReg i v).cfg = s.cfg

/-- The two readings of the arithmetic width agree on an instruction whose result fits in 32 bits signed
(44_integer_register.md R153, D1; log 4). -/
def Obligations.WidthReadingsAgreeWhenTheResultFits : Prop :=
  ∀ (i : Instr) (s t : State), s.cfg.arithNarrow32 = false → exec i s = .next t →
    -(2 : Int) ^ 31 ≤ (t.getReg i.dest).toInt → (t.getReg i.dest).toInt < 2 ^ 31 →
    ∃ t', exec i { s with cfg := { s.cfg with arithNarrow32 := true } } = .next t' ∧ SameRegs t t' ∧ t'.pc = t.pc

/-! ## The host's accessors -/

/-- `get_register`, `set_register` and the read of pc (10_state.md R37, R24): checked to 0 to 31, a write seen by the next
read (narrowed as every register write, log 5), a write to 0 without effect, an index above 31 InvalidRegisterIndex
(D24; log 26). -/
def Obligations.HostAccessorsAreBoundsChecked : Prop :=
  ∀ (s : State) (v : Word) (n : Nat),
    s.hostGetPc = s.pc ∧
    (31 < n → s.hostGetRegister n = .error .invalidRegisterIndex ∧
      s.hostSetRegister n v = .fault .invalidRegisterIndex) ∧
    ∀ h : n < 32, s.hostGetRegister n = .ok (s.getReg ⟨n, h⟩) ∧
      ∃ t, s.hostSetRegister n v = .next t ∧ WritesOnly ⟨n, h⟩ v s t ∧ t.pc = s.pc ∧
        t.hostGetRegister n = .ok (if n = 0 then 0#64 else narrowed s.cfg v)

/-! ## Memory, load and fetch -/

/-- Canonical memories that read alike are equal data: the model's form of Memory (log 3). -/
def Obligations.CanonicalMemoriesThatReadAlikeAreEqual : Prop :=
  ∀ s t : State, s.cfg = t.cfg → Memory.wf s.cfg s.mem = true → Memory.wf t.cfg t.mem = true →
    (∀ a, s.readByte a = t.readByte a) → s.mem = t.mem

/-- 20_memory.md R42: the window from `addr` to capacity, OutOfBounds from capacity up. -/
def Obligations.ReadWindowIsTheRestOfMemory : Prop :=
  ∀ (s : State) (a : Nat),
    (s.cfg.memCapacity ≤ a → s.readWindow a = .error .outOfBounds) ∧
    (a < s.cfg.memCapacity → ∃ bytes, s.readWindow a = .ok bytes ∧ bytes.length = s.cfg.memCapacity - a ∧
      (∀ (k : Nat) (h : k < bytes.length), s.readByte (a + k) = .ok bytes[k]) ∧
      (a + 4 ≤ s.cfg.memCapacity → s.memRead a 4 = .ok (bytes.take 4)))

/-- `MemRead(addr, n)` answers the n bytes from addr up, and OutOfBounds exactly when addr + n exceeds MEM_CAPACITY as a
natural number (20_memory.md R44; a short window is D6, log 11). -/
def Obligations.MemReadAnswersTheBytesOrOutOfBounds : Prop :=
  ∀ (s : State) (a n : Nat), 1 ≤ n →
    (s.cfg.memCapacity < a + n → s.memRead a n = .error .outOfBounds) ∧
    (a + n ≤ s.cfg.memCapacity → ∃ bytes, s.memRead a n = .ok bytes ∧ bytes.length = n ∧
      ∀ (k : Nat) (h : k < bytes.length), s.readByte (a + k) = .ok bytes[k])

/-- The reserved write stores the n low bytes, least significant first, and no other byte, keeps the canonical form, and
raises OutOfBounds beyond capacity (20_memory.md R43, D18; log 19). -/
def Obligations.ReservedWriteIsLittleEndianAndBoundsChecked : Prop :=
  ∀ (s : State) (a n v : Nat), Memory.wf s.cfg s.mem = true →
    (s.cfg.memCapacity < a + n → s.memWrite a n v = .fault .outOfBounds) ∧
    (a + n ≤ s.cfg.memCapacity → ∃ t, s.memWrite a n v = .next t ∧ Memory.wf t.cfg t.mem = true ∧
      (∀ k < n, t.readByte (a + k) = .ok (BitVec.ofNat 8 (v / 256 ^ k))) ∧
      (∀ k, k < a ∨ a + n ≤ k → t.readByte k = s.readByte k) ∧ SameRegs s t ∧ t.pc = s.pc ∧ t.cfg = s.cfg)

/-- `load` copies the image to offsets 0 up and leaves every other byte, every register and pc; an image longer than
Memory is refused (20_memory.md R41; the refusal is D11, log 18). -/
def Obligations.LoadCopiesTheImage : Prop :=
  ∀ (s : State) (image : List Byte), Memory.wf s.cfg s.mem = true →
    (s.cfg.memCapacity < image.length → s.load image = .refused .imageTooLong) ∧
    (image.length ≤ s.cfg.memCapacity → ∃ t, s.load image = .next t ∧ Memory.wf t.cfg t.mem = true ∧
      (∀ (k : Nat) (h : k < image.length), t.readByte k = .ok image[k]) ∧
      (∀ k, image.length ≤ k → t.readByte k = s.readByte k) ∧ SameRegs s t ∧ t.pc = s.pc ∧ t.cfg = s.cfg)

/-- 20_memory.md R45, 40_fetch_and_step.md R90: the fetched word is `b[0] | b[1] << 8 | b[2] << 16 | b[3] << 24` at any pc
whose four bytes exist. That this holds at a pc that is no multiple of 4 is D7 (20_memory.md R47; log 12). -/
def Obligations.FetchIsLittleEndian : Prop :=
  ∀ s : State, s.pc.toNat + 4 ≤ s.cfg.memCapacity → ∃ b0 b1 b2 b3 : Byte,
    s.readByte s.pc.toNat = .ok b0 ∧ s.readByte (s.pc.toNat + 1) = .ok b1 ∧
    s.readByte (s.pc.toNat + 2) = .ok b2 ∧ s.readByte (s.pc.toNat + 3) = .ok b3 ∧
    fetch s = .ok (b0.setWidth 32 ||| b1.setWidth 32 <<< 8 ||| b2.setWidth 32 <<< 16 ||| b3.setWidth 32 <<< 24)

/-- A fetch raises OutOfBounds exactly when pc + 4 > MEM_CAPACITY as natural numbers, and raises nothing else
(40_fetch_and_step.md R91; the short window is D6, log 11, and that no alignment is checked D7, log 12). -/
def Obligations.FetchFailsExactlyOutsideMemory : Prop :=
  ∀ s : State, (fetch s = .error .outOfBounds ↔ s.cfg.memCapacity < s.pc.toNat + 4) ∧
    ∀ f, fetch s = .error f → f = .outOfBounds

/-- A word placed at pc is the word fetched next: no cache, no prefetch (20_memory.md R54; the placing is the model's
`withFetchWord`, log 23; any pc, a multiple of 4 or not, D7, log 12). -/
def Obligations.FetchSeesTheWordPlacedAtPc : Prop :=
  ∀ (s : State) (w : InstrWord), Memory.wf s.cfg s.mem = true → s.pc.toNat + 4 ≤ s.cfg.memCapacity →
    fetch (s.withFetchWord 32 w.toNat) = .ok w ∧ step (s.withFetchWord 32 w.toNat) = runWord w (s.withFetchWord 32 w.toNat)

/-! ## The step -/

/-- When the four bytes at pc decode to an instruction, a step is that instruction's meaning (40_fetch_and_step.md R94,
R101). -/
def Obligations.StepRunsTheDecodedInstruction : Prop :=
  ∀ (s : State) (bytes rest : List Byte) (i : Instr),
    s.memRead s.pc.toNat 4 = .ok bytes → decode bytes = .ok (i, rest) → i.wf = true ∧ step s = exec i s

/-- The step as a function: the bounds test, then the sentinel test, then the decode, then the instruction
(40_fetch_and_step.md R101, 60_exceptions.md R174; the order is D15, log 16; Halt is a named fault, log 14). -/
def Obligations.StepTestsBoundsThenSentinelThenDecode : Prop :=
  ∀ s : State,
    (s.cfg.memCapacity < s.pc.toNat + 4 → step s = .fault .outOfBounds) ∧
    (s.pc.toNat + 4 ≤ s.cfg.memCapacity → ∃ w, fetch s = .ok w ∧
      (w = 0#32 → step s = .fault .haltSentinel) ∧
      (w ≠ 0#32 → ∀ e, decodeWord w = .error e → step s = .fault .unknownInstruction) ∧
      (w ≠ 0#32 → ∀ i, decodeWord w = .ok i → step s = exec i s ∧ ∃ t, step s = .next t))

/-- 40_fetch_and_step.md R95: the sentinel ends the run normally, with registers, pc and Memory as before the fetch; no
other word does. -/
def Obligations.SentinelEndsTheRunNormally : Prop :=
  ∀ s : State, (step s = .fault .haltSentinel ↔ fetch s = .ok 0#32) ∧
    ((Run.start s).tick.status = .endedNormally ↔ fetch s = .ok 0#32) ∧
    (fetch s = .ok 0#32 → (Run.start s).tick.cpu = s)

/-- 40_fetch_and_step.md R97: OutOfBounds from the fetch ends the run as a failure, the state unchanged, pc the address
that could not be fetched. -/
def Obligations.OutOfBoundsEndsTheRunUnchanged : Prop :=
  ∀ s : State, fetch s = .error .outOfBounds → (Run.start s).tick = ⟨s, .failed .outOfBounds⟩

/-- UnknownInstruction ends the run as a failure with the state before the step (40_fetch_and_step.md R96; that it is fatal
is D12, log 17). -/
def Obligations.UnknownInstructionEndsTheRunUnchanged : Prop :=
  ∀ (s : State) (w : InstrWord) (e : DecodeError), fetch s = .ok w → w ≠ 0#32 → decodeWord w = .error e →
    (Run.start s).tick = ⟨s, .failed .unknownInstruction⟩

/-- An ended run takes no further step: its state and status stay, whatever the number of passes (40_fetch_and_step.md
R100, D19; log 15). -/
def Obligations.EndedRunIsFinal : Prop :=
  ∀ (r : Run) (m n : Nat), (r.ticks m).status ≠ .running → r.ticks (m + n) = r.ticks m

/-- No step is refused, and no step raises InvalidRegisterIndex; an error of a step is OutOfBounds or UnknownInstruction
(10_state.md R24, 60_exceptions.md R171). -/
def Obligations.StepRaisesOnlyItsThreeEnds : Prop :=
  ∀ s : State, (∀ c, step s ≠ .refused c) ∧
    ∀ f, step s = .fault f → f = .haltSentinel ∨ f = .outOfBounds ∨ f = .unknownInstruction

/-- 45_absent_families.md R161: no step changes Memory, and a word of the RISC-V store opcode is unknown. -/
def Obligations.NoStepChangesMemory : Prop :=
  (∀ s t : State, step s = .next t → t.mem = s.mem ∧ t.cfg = s.cfg ∧ ∀ a, t.readByte a = s.readByte a) ∧
  ∀ (w : InstrWord) (s : State), opcodeField w = 0b0100011#7 → dispatch w s = .fault .unknownInstruction

/-- The words RISC-V gives to the families this hardware lacks are all UnknownInstruction: loads, stores, branches, jalr,
fence, system, atomics, floating point, vector, the word operations, the compressed instructions, and the register operations
other than add and sub, multiply and divide among them (45_absent_families.md R160 to R168; 44_integer_register.md R152; the
encodings are GK3, log 10). -/
def Obligations.AbsentFamiliesAreUnknown : Prop :=
  ∀ (w : InstrWord) (s : State),
    opcodeField w ∈ [0b0000011#7, 0b0100011#7, 0b1100011#7, 0b1100111#7, 0b0001111#7, 0b1110011#7, 0b0101111#7,
      0b0000111#7, 0b0100111#7, 0b1010011#7, 0b1000011#7, 0b1000111#7, 0b1001011#7, 0b1001111#7, 0b1010111#7,
      0b0011011#7, 0b0111011#7] ∨ (opcodeField w).extractLsb' 0 2 ≠ 0b11#2 ∨
      (opcodeField w = 0b0110011#7 ∧ (funct3Field w ≠ 0b000#3 ∨ funct7Field w = 0b0000001#7)) →
    dispatch w s = .fault .unknownInstruction

/-- 10_state.md R27: a step advances pc by 4, or by the J-type immediate for `jal`; a pass that ends the run leaves it; and
none of the host's operations changes it. That the sum wraps, as it does for a `jal` below 0, is D8 (R28; log 13), and the
reserved write is D18's operation (log 19). -/
def Obligations.PcChangesOnlyByAdvanceAndJump : Prop :=
  (∀ s t : State, step s = .next t →
    (∃ w rd o, fetch s = .ok w ∧ decodeWord w = .ok (.jal rd o) ∧ t.pc = s.pc + immJ o) ∨
    (∃ w i, fetch s = .ok w ∧ decodeWord w = .ok i ∧ (∀ rd o, i ≠ .jal rd o) ∧ t.pc = s.pc + 4#64)) ∧
  (∀ r : Run, r.tick.status ≠ .running → r.tick.cpu.pc = r.cpu.pc) ∧
  (∀ (s t : State) (n : Nat) (v : Word), s.hostSetRegister n v = .next t → t.pc = s.pc) ∧
  (∀ (s t : State) (image : List Byte), s.load image = .next t → t.pc = s.pc) ∧
  (∀ (s t : State) (a n v : Nat), s.memWrite a n v = .next t → t.pc = s.pc)

/-- The sequential advance never wraps (10_state.md R28; it rests on the legal range of MEM_CAPACITY, D9, log 28). -/
def Obligations.SequentialAdvanceNeverWraps : Prop :=
  ∀ (s t : State) (w : InstrWord) (i : Instr), s.cfg.legal = true → fetch s = .ok w → decodeWord w = .ok i →
    (∀ rd o, i ≠ .jal rd o) → step s = .next t → t.pc.toNat = s.pc.toNat + 4

/-- A `jal` whose target is below 0 completes, writes its link and leaves pc at 2^64 - 2^20 or above, and the next step
fails with OutOfBounds (10_state.md R28, R29; 43_jump.md R140, R141; D8, log 13). -/
def Obligations.JumpBelowZeroFailsAtTheNextFetch : Prop :=
  ∀ (s : State) (rd : Reg) (offset : BitVec 21), s.cfg.legal = true → s.pc.toNat + offset.toInt < 0 →
    ∃ t, exec (.jal rd offset) s = .next t ∧ WritesOnly rd (s.pc + 4#64) s t ∧ 2 ^ 64 - 2 ^ 20 ≤ t.pc.toNat ∧
      step t = .fault .outOfBounds

/-! ## Reset, boot and runs -/

/-- 70_reset_and_hazards.md R190: after construction every register reads 0 and pc is 0, under every value of the
parameters, and the load of an image leaves them so: a program's entry point is address 0. -/
def Obligations.ResetClearsRegistersAndPc : Prop :=
  (∀ r : Reg, State.reset.getReg r = 0#64) ∧ State.reset.pc = 0#64 ∧
  (∀ (c : Config) (r : Reg), (State.resetWith c).getReg r = 0#64 ∧ (State.resetWith c).pc = 0#64) ∧
  ∀ (c : Config) (image : List Byte) (s : State), boot c image = .next s →
    (∀ r : Reg, s.getReg r = 0#64) ∧ s.pc = 0#64

/-- Memory before `load` holds MEM_FILL_BYTE at every offset below MEM_CAPACITY and nothing above
(70_reset_and_hazards.md R191, D10; log 3). -/
def Obligations.ResetMemoryIsFillBytes : Prop :=
  ∀ (c : Config) (a : Nat),
    (a < c.memCapacity → (State.resetWith c).readByte a = .ok c.memFill) ∧
    (c.memCapacity ≤ a → (State.resetWith c).readByte a = .error .outOfBounds)

/-- The invariant holds after reset, and after reset under every legal value of the parameters (10_state.md R36, R28; the
invariant's canonical Memory is the model's form, log 3). -/
def Obligations.ResetMeetsTheInvariant : Prop :=
  StateInv State.reset ∧ ∀ c : Config, c.legal = true → StateInv (State.resetWith c)

/-- Every step keeps the invariant: legal parameters, canonical Memory, entry 0 of the register file at 0, pc even
(10_state.md R22, R28), registers narrowed where ARITH_NARROW32 says so (00_scope.md R10). -/
def Obligations.EveryStepKeepsTheInvariant : Prop :=
  ∀ s t : State, StateInv s → step s = .next t → StateInv t

/-- The boot meets the invariant, and the host's register write and load keep it (70_reset_and_hazards.md R192, R198). That
the register write keeps `narrowRegs` is the model's deduction, by 10_state.md R37 with 00_scope.md R10, that it narrows as
every register write does (log 5). -/
def Obligations.HostOperationsKeepTheInvariant : Prop :=
  (∀ (c : Config) (image : List Byte) (s : State), c.legal = true → boot c image = .next s → StateInv s) ∧
  (∀ (s t : State) (n : Nat) (v : Word), StateInv s → s.hostSetRegister n v = .next t → StateInv t) ∧
  (∀ (s t : State) (image : List Byte), StateInv s → s.load image = .next t → StateInv t)

/-- For a whole run, whatever its length, the byte at an offset is the image's byte there, or MEM_FILL_BYTE beyond the
image (20_memory.md R51 (b); the fill is D10, log 3, and no host write during the run is D17, log 20). -/
def Obligations.MemoryOfARunIsTheLoadedImage : Prop :=
  ∀ (c : Config) (image : List Byte) (s : State) (n k : Nat), boot c image = .next s →
    (∀ h : k < image.length, ((Run.start s).ticks n).cpu.readByte k = .ok image[k]) ∧
    (image.length ≤ k → k < c.memCapacity → ((Run.start s).ticks n).cpu.readByte k = .ok c.memFill) ∧
    (c.memCapacity ≤ k → ((Run.start s).ticks n).cpu.readByte k = .error .outOfBounds)

/-- The sequence of pc values of a run, and how it ends, do not depend on register values: two runs from states alike but
for their registers go through the same pc values and have the same status after every number of passes
(40_fetch_and_step.md R102, which the spec marks derived; no host write during the run is D17, log 20). -/
def Obligations.ControlFlowIsIndependentOfRegisters : Prop :=
  ∀ (s s' : State) (n : Nat), SameButRegs s s' →
    ((Run.start s).ticks n).cpu.pc = ((Run.start s').ticks n).cpu.pc ∧
    ((Run.start s).ticks n).status = ((Run.start s').ticks n).status
end

