-- ==== Sys2Proof/Laws/Decode.lean ====
section
/-! SUPPORT. The laws of the byte order, the fields of an encoded word, and what the decoder can answer. -/

namespace Sys2Proof

/-! ### Bytes -/

@[simp] theorem length_leBytes (n v : Nat) : (leBytes n v).length = n := by
  induction n generalizing v with
  | zero => rfl
  | succ n ih => simp [leBytes, ih]

/-- The number of the low bytes of a number. -/
theorem leNat_leBytes (n v : Nat) : leNat (leBytes n v) = v % 256 ^ n := by
  induction n generalizing v with
  | zero => simp [leBytes, leNat, Nat.mod_one]
  | succ n ih =>
    simp only [leBytes, leNat, ih, BitVec.toNat_ofNat]
    rw [show 256 ^ (n + 1) = 256 * 256 ^ n from Nat.pow_succ', Nat.mod_mul]

/-- Four bytes laid out little-endian read back as the word. -/
theorem wordOfBytes_leBytes (v : Nat) : wordOfBytes (leBytes 4 v) = BitVec.ofNat 32 v := by
  apply BitVec.eq_of_toNat_eq
  simp [wordOfBytes, leNat_leBytes]

/-- A list of four bytes, written out. -/
theorem leBytes_four (v : Nat) :
    leBytes 4 v = [BitVec.ofNat 8 v, BitVec.ofNat 8 (v / 256), BitVec.ofNat 8 (v / 256 / 256),
      BitVec.ofNat 8 (v / 256 / 256 / 256)] := rfl

/-- Decoding the four bytes of a word is decoding the word. -/
theorem decode_leBytes (v : Nat) (rest : List Byte) :
    decode (leBytes 4 v ++ rest) =
      match decodeWord (BitVec.ofNat 32 v) with
      | .ok i => .ok (i, rest)
      | .error e => .error e := by
  rw [← wordOfBytes_leBytes]; rfl

/-! ### The fields of an encoded word -/

theorem encodeR_opcode (f7 : BitVec 7) (rs2 rs1 : Reg) (f3 : BitVec 3) (rd : Reg) (op : BitVec 7) :
    opcodeField (encodeR f7 rs2 rs1 f3 rd op) = op := by
  unfold opcodeField encodeR
  rw [BitVec.extractLsb'_append_eq_of_add_le (by decide)]
  exact BitVec.extractLsb'_eq_self

theorem encodeR_rd (f7 : BitVec 7) (rs2 rs1 : Reg) (f3 : BitVec 3) (rd : Reg) (op : BitVec 7) :
    rdField (encodeR f7 rs2 rs1 f3 rd op) = rd := by
  unfold rdField encodeR
  rw [BitVec.extractLsb'_append_eq_of_le (by decide), BitVec.extractLsb'_append_eq_of_add_le (by decide)]
  exact congrArg BitVec.toFin BitVec.extractLsb'_eq_self

theorem encodeR_funct3 (f7 : BitVec 7) (rs2 rs1 : Reg) (f3 : BitVec 3) (rd : Reg) (op : BitVec 7) :
    funct3Field (encodeR f7 rs2 rs1 f3 rd op) = f3 := by
  unfold funct3Field encodeR
  rw [BitVec.extractLsb'_append_eq_of_le (by decide), BitVec.extractLsb'_append_eq_of_le (by decide),
    BitVec.extractLsb'_append_eq_of_add_le (by decide)]
  exact BitVec.extractLsb'_eq_self

theorem encodeR_rs1 (f7 : BitVec 7) (rs2 rs1 : Reg) (f3 : BitVec 3) (rd : Reg) (op : BitVec 7) :
    rs1Field (encodeR f7 rs2 rs1 f3 rd op) = rs1 := by
  unfold rs1Field encodeR
  rw [BitVec.extractLsb'_append_eq_of_le (by decide), BitVec.extractLsb'_append_eq_of_le (by decide),
    BitVec.extractLsb'_append_eq_of_le (by decide), BitVec.extractLsb'_append_eq_of_add_le (by decide)]
  exact congrArg BitVec.toFin BitVec.extractLsb'_eq_self

theorem encodeR_rs2 (f7 : BitVec 7) (rs2 rs1 : Reg) (f3 : BitVec 3) (rd : Reg) (op : BitVec 7) :
    rs2Field (encodeR f7 rs2 rs1 f3 rd op) = rs2 := by
  unfold rs2Field encodeR
  rw [BitVec.extractLsb'_append_eq_of_le (by decide), BitVec.extractLsb'_append_eq_of_le (by decide),
    BitVec.extractLsb'_append_eq_of_le (by decide), BitVec.extractLsb'_append_eq_of_le (by decide),
    BitVec.extractLsb'_append_eq_of_add_le (by decide)]
  exact congrArg BitVec.toFin BitVec.extractLsb'_eq_self

theorem encodeR_funct7 (f7 : BitVec 7) (rs2 rs1 : Reg) (f3 : BitVec 3) (rd : Reg) (op : BitVec 7) :
    funct7Field (encodeR f7 rs2 rs1 f3 rd op) = f7 := by
  unfold funct7Field encodeR
  rw [BitVec.extractLsb'_append_eq_of_le (by decide), BitVec.extractLsb'_append_eq_of_le (by decide),
    BitVec.extractLsb'_append_eq_of_le (by decide), BitVec.extractLsb'_append_eq_of_le (by decide),
    BitVec.extractLsb'_append_eq_of_le (by decide)]
  exact BitVec.extractLsb'_eq_self

theorem encodeI_opcode (imm : BitVec 12) (rs1 : Reg) (f3 : BitVec 3) (rd : Reg) (op : BitVec 7) :
    opcodeField (encodeI imm rs1 f3 rd op) = op := by
  unfold opcodeField encodeI
  rw [BitVec.extractLsb'_append_eq_of_add_le (by decide)]
  exact BitVec.extractLsb'_eq_self

theorem encodeI_rd (imm : BitVec 12) (rs1 : Reg) (f3 : BitVec 3) (rd : Reg) (op : BitVec 7) :
    rdField (encodeI imm rs1 f3 rd op) = rd := by
  unfold rdField encodeI
  rw [BitVec.extractLsb'_append_eq_of_le (by decide), BitVec.extractLsb'_append_eq_of_add_le (by decide)]
  exact congrArg BitVec.toFin BitVec.extractLsb'_eq_self

theorem encodeI_funct3 (imm : BitVec 12) (rs1 : Reg) (f3 : BitVec 3) (rd : Reg) (op : BitVec 7) :
    funct3Field (encodeI imm rs1 f3 rd op) = f3 := by
  unfold funct3Field encodeI
  rw [BitVec.extractLsb'_append_eq_of_le (by decide), BitVec.extractLsb'_append_eq_of_le (by decide),
    BitVec.extractLsb'_append_eq_of_add_le (by decide)]
  exact BitVec.extractLsb'_eq_self

theorem encodeI_rs1 (imm : BitVec 12) (rs1 : Reg) (f3 : BitVec 3) (rd : Reg) (op : BitVec 7) :
    rs1Field (encodeI imm rs1 f3 rd op) = rs1 := by
  unfold rs1Field encodeI
  rw [BitVec.extractLsb'_append_eq_of_le (by decide), BitVec.extractLsb'_append_eq_of_le (by decide),
    BitVec.extractLsb'_append_eq_of_le (by decide), BitVec.extractLsb'_append_eq_of_add_le (by decide)]
  exact congrArg BitVec.toFin BitVec.extractLsb'_eq_self

theorem encodeI_imm (imm : BitVec 12) (rs1 : Reg) (f3 : BitVec 3) (rd : Reg) (op : BitVec 7) :
    imm12Field (encodeI imm rs1 f3 rd op) = imm := by
  unfold imm12Field encodeI
  rw [BitVec.extractLsb'_append_eq_of_le (by decide), BitVec.extractLsb'_append_eq_of_le (by decide),
    BitVec.extractLsb'_append_eq_of_le (by decide), BitVec.extractLsb'_append_eq_of_le (by decide)]
  exact BitVec.extractLsb'_eq_self

/-- The `funct7` field of an I-type word is the high part of its immediate. -/
theorem encodeI_funct7 (imm : BitVec 12) (rs1 : Reg) (f3 : BitVec 3) (rd : Reg) (op : BitVec 7) :
    funct7Field (encodeI imm rs1 f3 rd op) = Instr.shiftFunct7 imm := by
  unfold funct7Field encodeI Instr.shiftFunct7
  rw [BitVec.extractLsb'_append_eq_of_le (by decide), BitVec.extractLsb'_append_eq_of_le (by decide),
    BitVec.extractLsb'_append_eq_of_le (by decide), BitVec.extractLsb'_append_eq_of_le (by decide)]

theorem encodeU_opcode (imm20 : BitVec 20) (rd : Reg) (op : BitVec 7) : opcodeField (encodeU imm20 rd op) = op := by
  unfold opcodeField encodeU
  rw [BitVec.extractLsb'_append_eq_of_add_le (by decide)]
  exact BitVec.extractLsb'_eq_self

theorem encodeU_rd (imm20 : BitVec 20) (rd : Reg) (op : BitVec 7) : rdField (encodeU imm20 rd op) = rd := by
  unfold rdField encodeU
  rw [BitVec.extractLsb'_append_eq_of_le (by decide), BitVec.extractLsb'_append_eq_of_add_le (by decide)]
  exact congrArg BitVec.toFin BitVec.extractLsb'_eq_self

theorem encodeU_imm (imm20 : BitVec 20) (rd : Reg) (op : BitVec 7) : imm20Field (encodeU imm20 rd op) = imm20 := by
  unfold imm20Field encodeU
  rw [BitVec.extractLsb'_append_eq_of_le (by decide), BitVec.extractLsb'_append_eq_of_le (by decide)]
  exact BitVec.extractLsb'_eq_self

theorem encodeJ_opcode (o : BitVec 21) (rd : Reg) (op : BitVec 7) : opcodeField (encodeJ o rd op) = op := by
  unfold opcodeField encodeJ
  rw [BitVec.extractLsb'_append_eq_of_add_le (by decide)]
  exact BitVec.extractLsb'_eq_self

theorem encodeJ_rd (o : BitVec 21) (rd : Reg) (op : BitVec 7) : rdField (encodeJ o rd op) = rd := by
  unfold rdField encodeJ
  rw [BitVec.extractLsb'_append_eq_of_le (by decide), BitVec.extractLsb'_append_eq_of_add_le (by decide)]
  exact congrArg BitVec.toFin BitVec.extractLsb'_eq_self

/-- The pieces of a J-type immediate put together again, bit 0 being clear (30_encoding.md R67). -/
theorem offset_pieces {o : BitVec 21} (h : o.getLsbD 0 = false) :
    o.extractLsb' 20 1 ++ o.extractLsb' 12 8 ++ o.extractLsb' 11 1 ++ o.extractLsb' 1 10 ++ 0#1 = o := by
  ext i hi
  rcases Nat.eq_zero_or_pos i with rfl | h0
  · rw [BitVec.getElem_append]
    exact h.symm
  · simp only [BitVec.getElem_append, BitVec.getElem_extractLsb']
    split_ifs <;> first | omega | (rw [BitVec.getLsbD_eq_getElem (by omega)]; congr 1; omega)

/-- The offset of a J-type word is the one it was made of, bit 0 being clear. -/
theorem encodeJ_offset {o : BitVec 21} (h : o.getLsbD 0 = false) (rd : Reg) (op : BitVec 7) :
    offsetField (encodeJ o rd op) = o := by
  have h31 : (encodeJ o rd op).extractLsb' 31 1 = o.extractLsb' 20 1 := by
    unfold encodeJ
    rw [BitVec.extractLsb'_append_eq_of_le (by decide), BitVec.extractLsb'_append_eq_of_le (by decide),
      BitVec.extractLsb'_append_eq_of_le (by decide), BitVec.extractLsb'_append_eq_of_le (by decide),
      BitVec.extractLsb'_append_eq_of_le (by decide)]
    exact BitVec.extractLsb'_eq_self
  have h21 : (encodeJ o rd op).extractLsb' 21 10 = o.extractLsb' 1 10 := by
    unfold encodeJ
    rw [BitVec.extractLsb'_append_eq_of_le (by decide), BitVec.extractLsb'_append_eq_of_le (by decide),
      BitVec.extractLsb'_append_eq_of_le (by decide), BitVec.extractLsb'_append_eq_of_le (by decide),
      BitVec.extractLsb'_append_eq_of_add_le (by decide)]
    exact BitVec.extractLsb'_eq_self
  have h20 : (encodeJ o rd op).extractLsb' 20 1 = o.extractLsb' 11 1 := by
    unfold encodeJ
    rw [BitVec.extractLsb'_append_eq_of_le (by decide), BitVec.extractLsb'_append_eq_of_le (by decide),
      BitVec.extractLsb'_append_eq_of_le (by decide), BitVec.extractLsb'_append_eq_of_add_le (by decide)]
    exact BitVec.extractLsb'_eq_self
  have h12 : (encodeJ o rd op).extractLsb' 12 8 = o.extractLsb' 12 8 := by
    unfold encodeJ
    rw [BitVec.extractLsb'_append_eq_of_le (by decide), BitVec.extractLsb'_append_eq_of_le (by decide),
      BitVec.extractLsb'_append_eq_of_add_le (by decide)]
    exact BitVec.extractLsb'_eq_self
  unfold offsetField
  rw [h31, h21, h20, h12]
  exact offset_pieces h

/-! ### What the decoder can answer -/

/-- The shift-right decoder answers exactly two instructions. -/
theorem decodeShiftRight_cases {w : InstrWord} {i : Instr} (h : decodeShiftRight w = .ok i) :
    (funct7Field w = 0b0000000#7 ∧ i = .srli (rdField w) (rs1Field w) (imm12Field w)) ∨
      (funct7Field w = 0b0100000#7 ∧ i = .srai (rdField w) (rs1Field w) (imm12Field w)) := by
  unfold decodeShiftRight at h
  split at h
  · next h7 => cases h; exact .inl ⟨h7, rfl⟩
  split at h
  · next h7 => cases h; exact .inr ⟨h7, rfl⟩
  · cases h

/-- The register-register decoder answers exactly two instructions. -/
theorem decodeRegister_cases {w : InstrWord} {i : Instr} (h : decodeRegister w = .ok i) :
    funct3Field w = 0b000#3 ∧
      ((funct7Field w = 0b0000000#7 ∧ i = .add (rdField w) (rs1Field w) (rs2Field w)) ∨
        (funct7Field w = 0b0100000#7 ∧ i = .sub (rdField w) (rs1Field w) (rs2Field w))) := by
  unfold decodeRegister at h
  split at h
  · next h7 => cases h; exact ⟨h7.1, .inl ⟨h7.2, rfl⟩⟩
  split at h
  · next h7 => cases h; exact ⟨h7.1, .inr ⟨h7.2, rfl⟩⟩
  · cases h

/-- The one value of funct3 that no test of `decodeImmediate` takes. -/
theorem funct3_last (f : BitVec 3) (h0 : f ≠ 0b000#3) (h1 : f ≠ 0b001#3) (h2 : f ≠ 0b010#3) (h3 : f ≠ 0b011#3)
    (h4 : f ≠ 0b100#3) (h5 : f ≠ 0b101#3) (h6 : f ≠ 0b110#3) : f = 0b111#3 := by
  bv_omega

/-- Everything the opcode 0010011 decodes to (30_encoding.md R70). -/
theorem decodeImmediate_cases {w : InstrWord} {i : Instr} (h : decodeImmediate w = .ok i) :
    (funct3Field w = 0b000#3 ∧ i = .addi (rdField w) (rs1Field w) (imm12Field w)) ∨
    (funct3Field w = 0b001#3 ∧ i = .slli (rdField w) (rs1Field w) (imm12Field w)) ∨
    (funct3Field w = 0b010#3 ∧ i = .slti (rdField w) (rs1Field w) (imm12Field w)) ∨
    (funct3Field w = 0b011#3 ∧ i = .sltiu (rdField w) (rs1Field w) (imm12Field w)) ∨
    (funct3Field w = 0b100#3 ∧ i = .xori (rdField w) (rs1Field w) (imm12Field w)) ∨
    (funct3Field w = 0b101#3 ∧ funct7Field w = 0b0000000#7 ∧ i = .srli (rdField w) (rs1Field w) (imm12Field w)) ∨
    (funct3Field w = 0b101#3 ∧ funct7Field w = 0b0100000#7 ∧ i = .srai (rdField w) (rs1Field w) (imm12Field w)) ∨
    (funct3Field w = 0b110#3 ∧ i = .ori (rdField w) (rs1Field w) (imm12Field w)) ∨
    (funct3Field w = 0b111#3 ∧ i = .andi (rdField w) (rs1Field w) (imm12Field w)) := by
  unfold decodeImmediate at h
  split at h
  · next h3 => cases h; exact .inl ⟨h3, rfl⟩
  split at h
  · next h3 => cases h; exact .inr (.inl ⟨h3, rfl⟩)
  split at h
  · next h3 => cases h; exact .inr (.inr (.inl ⟨h3, rfl⟩))
  split at h
  · next h3 => cases h; exact .inr (.inr (.inr (.inl ⟨h3, rfl⟩)))
  split at h
  · next h3 => cases h; exact .inr (.inr (.inr (.inr (.inl ⟨h3, rfl⟩))))
  split at h
  · next h3 =>
    rcases decodeShiftRight_cases h with ⟨h7, e⟩ | ⟨h7, e⟩
    · exact .inr (.inr (.inr (.inr (.inr (.inl ⟨h3, h7, e⟩)))))
    · exact .inr (.inr (.inr (.inr (.inr (.inr (.inl ⟨h3, h7, e⟩))))))
  split at h
  · next h3 => cases h; exact .inr (.inr (.inr (.inr (.inr (.inr (.inr (.inl ⟨h3, rfl⟩)))))))
  · next n0 n1 n2 n3 n4 n5 n6 =>
    cases h
    exact .inr (.inr (.inr (.inr (.inr (.inr (.inr (.inr ⟨funct3_last _ n0 n1 n2 n3 n4 n5 n6, rfl⟩)))))))

/-- The five opcodes, and what each leads to (30_encoding.md R69). -/
theorem decodeWord_cases {w : InstrWord} {i : Instr} (h : decodeWord w = .ok i) :
    (opcodeField w = 0b0110111#7 ∧ i = .lui (rdField w) (imm20Field w)) ∨
    (opcodeField w = 0b0010111#7 ∧ i = .auipc (rdField w) (imm20Field w)) ∨
    (opcodeField w = 0b0010011#7 ∧ decodeImmediate w = .ok i) ∨
    (opcodeField w = 0b1101111#7 ∧ i = .jal (rdField w) (offsetField w)) ∨
    (opcodeField w = 0b0110011#7 ∧ decodeRegister w = .ok i) := by
  unfold decodeWord at h
  split at h
  · next ho => cases h; exact .inl ⟨ho, rfl⟩
  split at h
  · next ho => cases h; exact .inr (.inl ⟨ho, rfl⟩)
  split at h
  · next ho => exact .inr (.inr (.inl ⟨ho, h⟩))
  split at h
  · next ho => cases h; exact .inr (.inr (.inr (.inl ⟨ho, rfl⟩)))
  split at h
  · next ho => exact .inr (.inr (.inr (.inr ⟨ho, h⟩)))
  · cases h

/-- A decoded jump offset has bit 0 clear (30_encoding.md R67). -/
theorem offsetField_even (w : InstrWord) : (offsetField w).getLsbD 0 = false := by
  unfold offsetField
  rw [BitVec.getLsbD_append]
  rfl

/-- The shift-form `funct7` of the decoded immediate is the `funct7` field of the word. -/
theorem shiftFunct7_imm12Field (w : InstrWord) : Instr.shiftFunct7 (imm12Field w) = funct7Field w := by
  unfold Instr.shiftFunct7 imm12Field funct7Field
  ext i hi
  simp only [BitVec.getElem_extractLsb', BitVec.getLsbD_extractLsb', show 5 + i < 12 by omega, decide_true,
    Bool.true_and]
  congr 1; omega

/-- The decoder answers well-formed instructions only. -/
theorem decodeWord_wf {w : InstrWord} {i : Instr} (h : decodeWord w = .ok i) : i.wf = true := by
  rcases decodeWord_cases h with ⟨_, rfl⟩ | ⟨_, rfl⟩ | ⟨_, h⟩ | ⟨_, rfl⟩ | ⟨_, h⟩
  · rfl
  · rfl
  · rcases decodeImmediate_cases h with ⟨_, rfl⟩ | ⟨_, rfl⟩ | ⟨_, rfl⟩ | ⟨_, rfl⟩ | ⟨_, rfl⟩ | ⟨_, h7, rfl⟩ |
      ⟨_, h7, rfl⟩ | ⟨_, rfl⟩ | ⟨_, rfl⟩
    all_goals first | rfl | simp [Instr.wf, shiftFunct7_imm12Field, h7]
  · simp only [Instr.wf, offsetField_even, beq_self_eq_true]
  · obtain ⟨_, ⟨_, rfl⟩ | ⟨_, rfl⟩⟩ := decodeRegister_cases h <;> rfl

end Sys2Proof
end

