-- ==== Sys2Proof/Laws/State.lean ====
section
/-! SUPPORT. The small lemmas of State: one per field per update, and the register accessors' laws. -/

namespace Sys2Proof.Machine.State

@[simp] theorem setPc_pc (s : State) (p : Word) : (s.setPc p).pc = p := rfl
@[simp] theorem setPc_x (s : State) (p : Word) : (s.setPc p).x = s.x := rfl
@[simp] theorem setPc_mem (s : State) (p : Word) : (s.setPc p).mem = s.mem := rfl
@[simp] theorem setPc_cfg (s : State) (p : Word) : (s.setPc p).cfg = s.cfg := rfl

@[simp] theorem setX_pc (s : State) (x : Vector Word 32) : (s.setX x).pc = s.pc := rfl
@[simp] theorem setX_x (s : State) (x : Vector Word 32) : (s.setX x).x = x := rfl
@[simp] theorem setX_mem (s : State) (x : Vector Word 32) : (s.setX x).mem = s.mem := rfl
@[simp] theorem setX_cfg (s : State) (x : Vector Word 32) : (s.setX x).cfg = s.cfg := rfl

@[simp] theorem setMem_pc (s : State) (m : Memory) : (s.setMem m).pc = s.pc := rfl
@[simp] theorem setMem_x (s : State) (m : Memory) : (s.setMem m).x = s.x := rfl
@[simp] theorem setMem_mem (s : State) (m : Memory) : (s.setMem m).mem = m := rfl
@[simp] theorem setMem_cfg (s : State) (m : Memory) : (s.setMem m).cfg = s.cfg := rfl

@[simp] theorem resetWith_pc (c : Config) : (resetWith c).pc = 0#64 := rfl
@[simp] theorem resetWith_mem (c : Config) : (resetWith c).mem = [] := rfl
@[simp] theorem resetWith_cfg (c : Config) : (resetWith c).cfg = c := rfl

/-- Equal fields make equal states. -/
theorem ext_fields {s t : State} (hx : s.x = t.x) (hp : s.pc = t.pc) (hm : s.mem = t.mem) (hc : s.cfg = t.cfg) :
    s = t := by
  cases s; cases t; simp_all

@[simp] theorem setReg_pc (s : State) (r : Reg) (v : Word) : (s.setReg r v).pc = s.pc := by
  unfold setReg; split <;> rfl

@[simp] theorem setReg_mem (s : State) (r : Reg) (v : Word) : (s.setReg r v).mem = s.mem := by
  unfold setReg; split <;> rfl

@[simp] theorem setReg_cfg (s : State) (r : Reg) (v : Word) : (s.setReg r v).cfg = s.cfg := by
  unfold setReg; split <;> rfl

@[simp] theorem getReg_of_zero (s : State) : s.getReg 0 = 0#64 := rfl

@[simp] theorem getReg_setPc (s : State) (p : Word) (r : Reg) : (s.setPc p).getReg r = s.getReg r := rfl

@[simp] theorem getReg_setMem (s : State) (m : Memory) (r : Reg) : (s.setMem m).getReg r = s.getReg r := rfl

theorem getReg_of_ne_zero (s : State) {r : Reg} (h : r ≠ 0) : s.getReg r = s.x[r] := if_neg h

/-- A register read after a register write: everything `x[i] <- v` does. -/
theorem getReg_setReg (s : State) (i r : Reg) (v : Word) :
    (s.setReg i v).getReg r = if r = 0 then 0#64 else if r = i then narrowed s.cfg v else s.getReg r := by
  unfold getReg setReg
  by_cases hr : r = 0
  · simp [hr]
  by_cases hi : i = 0
  · subst hi; simp [hr]
  by_cases h : r = i
  · subst h; simp [hr]
  · have h' : (i : Nat) ≠ (r : Nat) := fun e => h (Fin.ext e.symm)
    simp [hr, hi, h, Vector.getElem_set_ne, h']

/-- Entry 0 of the register file is never written. -/
@[simp] theorem setReg_zeroEntry (s : State) (i : Reg) (v : Word) : (s.setReg i v).x[0] = s.x[0] := by
  unfold setReg
  split
  · rfl
  · next h =>
    have h' : (i : Nat) ≠ 0 := fun e => h (Fin.ext e)
    simp [Vector.getElem_set_ne, h']

@[simp] theorem readByte_setPc (s : State) (p : Word) (a : Nat) : (s.setPc p).readByte a = s.readByte a := rfl

@[simp] theorem readByte_setReg (s : State) (r : Reg) (v : Word) (a : Nat) :
    (s.setReg r v).readByte a = s.readByte a := by
  simp [readByte]

end Sys2Proof.Machine.State
end

