-- ==== Sys2Proof/Laws/Memory.lean ====
section
/-! SUPPORT. The laws of Memory: what each operation answers, and that every one keeps the canonical form. -/

namespace Sys2Proof.Machine.Memory

/-- What the canonical form of a longer list says. -/
theorem wf_cons {cfg : Config} {c : Host.Cell} {m : Memory} :
    wf cfg (c :: m) = true ↔
      c.1 < cfg.memCapacity ∧ c.2 ≠ cfg.memFill ∧ (∀ d ∈ m, c.1 < d.1) ∧ wf cfg m = true := by
  simp [wf, and_assoc]

theorem lookup_of_below {fill : Byte} {m : Memory} {a : Nat} (h : ∀ d ∈ m, a < d.1) : lookup fill m a = fill := by
  induction m with
  | nil => rfl
  | cons c m ih =>
    have hc := h c (by simp)
    simp only [lookup]
    rw [if_neg (by omega)]
    exact ih fun d hd => h d (by simp [hd])

theorem lookup_consCell {fill : Byte} {m : Memory} {a : Nat} (h : ∀ d ∈ m, a < d.1) (b : Byte) (k : Nat) :
    lookup fill (consCell fill a b m) k = if k = a then b else lookup fill m k := by
  unfold consCell
  by_cases hb : b = fill
  · by_cases hk : k = a
    · subst hk; subst hb; simp [lookup_of_below h]
    · simp [hb, hk]
  · by_cases hk : k = a
    · simp [hb, hk, lookup]
    · simp [hb, hk, lookup, Ne.symm hk]

theorem mem_store {fill : Byte} {m : Memory} {a : Nat} {b : Byte} {d : Host.Cell} (h : d ∈ store fill m a b) :
    d = (a, b) ∨ d ∈ m := by
  induction m with
  | nil => unfold store consCell at h; split at h <;> simp_all
  | cons c m ih =>
    unfold store consCell at h
    split at h
    · split at h <;> simp_all
    split at h
    · split at h <;> simp_all [or_left_comm]
    · rcases List.mem_cons.mp h with h | h
      · exact .inr (by simp [h])
      · rcases ih h with h | h
        · exact .inl h
        · exact .inr (by simp [h])

/-- A read after a store: the stored byte at its address, every other byte as before. -/
theorem lookup_store {cfg : Config} {m : Memory} (h : wf cfg m = true) (a : Nat) (b : Byte) (k : Nat) :
    lookup cfg.memFill (store cfg.memFill m a b) k = if k = a then b else lookup cfg.memFill m k := by
  induction m with
  | nil => exact lookup_consCell (by simp) b k
  | cons c m ih =>
    obtain ⟨_, _, hlt, hm⟩ := wf_cons.mp h
    unfold store
    split
    · next hac =>
      exact lookup_consCell (fun d hd => by
        rcases List.mem_cons.mp hd with e | e
        · rw [e]; exact hac
        · exact lt_trans hac (hlt d e)) b k
    split
    · next hac =>
      rw [lookup_consCell (fun d hd => hac ▸ hlt d hd)]
      by_cases hk : k = a
      · simp [hk]
      · have : c.1 ≠ k := by omega
        simp [hk, lookup, this]
    · next h1 h2 =>
      simp only [lookup, ih hm]
      by_cases hk : c.1 = k
      · have : k ≠ a := by omega
        simp [hk, this]
      · simp [hk]

/-- A store keeps the canonical form. -/
theorem store_wf {cfg : Config} {m : Memory} (h : wf cfg m = true) {a : Nat} (ha : a < cfg.memCapacity) (b : Byte) :
    wf cfg (store cfg.memFill m a b) = true := by
  induction m with
  | nil =>
    unfold store consCell
    split
    · exact h
    · next hb => exact wf_cons.mpr ⟨ha, hb, by simp, h⟩
  | cons c m ih =>
    obtain ⟨h1, h2, hlt, hm⟩ := wf_cons.mp h
    unfold store consCell
    split
    · next hac =>
      split
      · exact h
      · next hb =>
        refine wf_cons.mpr ⟨ha, hb, fun d hd => ?_, h⟩
        rcases List.mem_cons.mp hd with e | e
        · rw [e]; exact hac
        · exact lt_trans hac (hlt d e)
    split
    · next hac =>
      split
      · exact hm
      · next hb => exact wf_cons.mpr ⟨ha, hb, fun d hd => hac ▸ hlt d hd, hm⟩
    · next n1 n2 =>
      refine wf_cons.mpr ⟨h1, h2, fun d hd => ?_, ih hm⟩
      rcases mem_store hd with e | e
      · rw [e]; show c.1 < a; omega
      · exact hlt d e

/-- Stores of bytes keep the canonical form. -/
theorem storeBytes_wf {cfg : Config} (bs : List Byte) {m : Memory} (h : wf cfg m = true) {a : Nat}
    (ha : a + bs.length ≤ cfg.memCapacity) : wf cfg (storeBytes cfg.memFill m a bs) = true := by
  induction bs generalizing m a with
  | nil => exact h
  | cons b bs ih =>
    simp only [List.length_cons] at ha
    exact ih (store_wf h (by omega) b) (by omega)

/-- A read after stores of bytes: the stored bytes at their addresses, every other byte as before. -/
theorem lookup_storeBytes {cfg : Config} (bs : List Byte) {m : Memory} (h : wf cfg m = true) {a : Nat}
    (ha : a + bs.length ≤ cfg.memCapacity) (k : Nat) :
    lookup cfg.memFill (storeBytes cfg.memFill m a bs) k =
      if h : a ≤ k ∧ k < a + bs.length then bs[k - a]'(by omega) else lookup cfg.memFill m k := by
  induction bs generalizing m a with
  | nil =>
    have : ¬(a ≤ k ∧ k < a + ([] : List Byte).length) := by simp
    rw [dif_neg this]; rfl
  | cons b bs ih =>
    simp only [List.length_cons] at ha
    simp only [storeBytes]
    rw [ih (store_wf h (by omega) b) (by omega), lookup_store h]
    by_cases hk : k = a
    · subst hk
      simp
    · by_cases hin : a + 1 ≤ k ∧ k < a + 1 + bs.length
      · have hin' : a ≤ k ∧ k < a + (b :: bs).length := by simp; omega
        rw [dif_pos hin, dif_pos hin']
        have e : k - a = (k - (a + 1)) + 1 := by omega
        simp [e]
      · have hin' : ¬(a ≤ k ∧ k < a + (b :: bs).length) := by simp; omega
        rw [dif_neg hin, dif_neg hin', if_neg hk]

@[simp] theorem length_bytesAt (fill : Byte) (m : Memory) (a n : Nat) : (bytesAt fill m a n).length = n := by
  induction n generalizing a with
  | zero => rfl
  | succ n ih => simp [bytesAt, ih]

/-- Byte `k` of the bytes from `a` up is the byte at `a + k`. -/
theorem getElem_bytesAt (fill : Byte) (m : Memory) (a n k : Nat) (h : k < (bytesAt fill m a n).length) :
    (bytesAt fill m a n)[k] = lookup fill m (a + k) := by
  induction n generalizing a k with
  | zero => simp at h
  | succ n ih =>
    cases k with
    | zero => rfl
    | succ k =>
      simp only [length_bytesAt] at h
      have := ih (a + 1) k (by simp; omega)
      simp only [bytesAt, List.getElem_cons_succ, this]
      congr 1; omega

end Sys2Proof.Machine.Memory

namespace Sys2Proof.Machine.State

/-- Placing bytes keeps the canonical form of Memory, whether or not they fit. -/
theorem storeBytes_wf {s : State} (h : Memory.wf s.cfg s.mem = true) (a : Nat) (bs : List Byte) :
    Memory.wf (s.storeBytes a bs).cfg (s.storeBytes a bs).mem = true := by
  unfold storeBytes
  split
  · next ha => exact Memory.storeBytes_wf bs h ha
  · exact h

/-- Memory after reset is in canonical form. -/
theorem resetWith_wf (c : Config) : Memory.wf (resetWith c).cfg (resetWith c).mem = true := rfl

theorem reset_wf : Memory.wf reset.cfg reset.mem = true := resetWith_wf Config.default

@[simp] theorem storeBytes_pc (s : State) (a : Nat) (bs : List Byte) : (s.storeBytes a bs).pc = s.pc := by
  unfold storeBytes; split <;> rfl

@[simp] theorem storeBytes_x (s : State) (a : Nat) (bs : List Byte) : (s.storeBytes a bs).x = s.x := by
  unfold storeBytes; split <;> rfl

@[simp] theorem storeBytes_cfg (s : State) (a : Nat) (bs : List Byte) : (s.storeBytes a bs).cfg = s.cfg := by
  unfold storeBytes; split <;> rfl

@[simp] theorem storeBytes_getReg (s : State) (a : Nat) (bs : List Byte) (r : Reg) :
    (s.storeBytes a bs).getReg r = s.getReg r := by
  simp [getReg]

end Sys2Proof.Machine.State
end

