-- ==== Sys2Proof/Laws/Operations.lean ====
section
/-! SUPPORT. One lemma per shared operation, saying once everything it can do, and what an instruction can do. -/

namespace Sys2Proof.Machine

/-- Everything `commit` does: one register write, the next pc, nothing else. -/
theorem commit_spec {rd : Reg} {v n : Word} {s t : State} (h : commit rd v n s = .next t) :
    WritesOnly rd v s t ∧ t.pc = n ∧ t.mem = s.mem ∧ t.x[0] = s.x[0] := by
  cases h
  exact ⟨⟨fun r => by rw [State.getReg_setPc, State.getReg_setReg], fun a => by simp, by simp⟩, by simp, by simp, by simp⟩

/-- `commit` always answers a next state. -/
theorem commit_completes (rd : Reg) (v n : Word) (s : State) : ∃ t, commit rd v n s = .next t := ⟨_, rfl⟩

/-- `retire` is `commit` with the automatic advance. -/
theorem retire_eq (rd : Reg) (v : Word) (s : State) : retire rd v s = commit rd v (s.pc + 4#64) s := rfl

/-- `raise` has no next state. -/
theorem raise_ne_next (f : Fault) (t : State) : raise f ≠ .next t := nofun

/-- The next pc of an instruction: pc + 4, but for `jal` (10_state.md R27). -/
theorem exec_eq_commit (i : Instr) (s : State) :
    ∃ v n, exec i s = commit i.dest v n s ∧
      ((n = s.pc + 4#64 ∧ ∀ rd o, i ≠ .jal rd o) ∨ (∃ rd o, i = .jal rd o ∧ n = s.pc + immJ o)) := by
  cases i with
  | jal rd o => exact ⟨_, _, rfl, .inr ⟨rd, o, rfl, rfl⟩⟩
  | _ => exact ⟨_, _, rfl, .inl ⟨rfl, nofun⟩⟩

/-- Everything `readByte` does. -/
theorem readByte_ok {s : State} {a : Nat} (h : a < s.cfg.memCapacity) :
    s.readByte a = .ok (s.mem.lookup s.cfg.memFill a) := if_pos h

theorem readByte_error {s : State} {a : Nat} (h : s.cfg.memCapacity ≤ a) : s.readByte a = .error .outOfBounds :=
  if_neg (by omega)

/-- A read after bytes are placed where they fit. -/
theorem readByte_storeBytes {s : State} (hw : Memory.wf s.cfg s.mem = true) {a : Nat} {bs : List Byte}
    (hf : a + bs.length ≤ s.cfg.memCapacity) (k : Nat) :
    (s.storeBytes a bs).readByte k =
      if h : a ≤ k ∧ k < a + bs.length then .ok (bs[k - a]'(by omega)) else s.readByte k := by
  unfold State.readByte State.storeBytes
  rw [if_pos hf]
  simp only [State.setMem_cfg, State.setMem_mem]
  rw [Memory.lookup_storeBytes bs hw hf]
  by_cases hk : k < s.cfg.memCapacity
  · by_cases hin : a ≤ k ∧ k < a + bs.length <;> simp [hk, hin]
  · have : ¬(a ≤ k ∧ k < a + bs.length) := by omega
    simp [hk, this]

/-- `sext_32` keeps the low 32 bits. -/
theorem setWidth_sext32 (v : Word) : ((v.setWidth 32).signExtend 64).setWidth 32 = v.setWidth 32 := by
  apply BitVec.eq_of_getLsbD_eq
  intro i hi
  simp [BitVec.getLsbD_signExtend, hi]
  omega

/-- The narrowing is idempotent: a narrowed value is its own narrowing. -/
theorem narrowed_narrowed (c : Config) (v : Word) : narrowed c (narrowed c v) = narrowed c v := by
  unfold narrowed
  split
  · rw [setWidth_sext32]
  · rfl

@[simp] theorem narrowed_zero (c : Config) : narrowed c 0#64 = 0#64 := by
  unfold narrowed; split <;> rfl

end Sys2Proof.Machine
end

