-- ==== Sys2Proof/Laws/PerInstr.lean ====
section
/-! SUPPORT. Per-instruction laws: the opcode and the destination field of every encoding. -/

namespace Sys2Proof.Laws.EncodedOpcode

/-- The opcode of an instruction's major opcode row (30_encoding.md R69). -/
def opcodeOf : Instr → BitVec 7
  | .lui _ _ => 0b0110111#7
  | .auipc _ _ => 0b0010111#7
  | .addi _ _ _ => 0b0010011#7
  | .slti _ _ _ => 0b0010011#7
  | .sltiu _ _ _ => 0b0010011#7
  | .xori _ _ _ => 0b0010011#7
  | .ori _ _ _ => 0b0010011#7
  | .andi _ _ _ => 0b0010011#7
  | .slli _ _ _ => 0b0010011#7
  | .srli _ _ _ => 0b0010011#7
  | .srai _ _ _ => 0b0010011#7
  | .jal _ _ => 0b1101111#7
  | .add _ _ _ => 0b0110011#7
  | .sub _ _ _ => 0b0110011#7

/-- The encoding holds the row's opcode and the destination register, whatever the other operands. -/
def Statement (i : Instr) : Prop := opcodeField (encode i) = opcodeOf i ∧ rdField (encode i) = i.dest

theorem lui (rd : Reg) (imm20 : BitVec 20) : Statement (.lui rd imm20) := ⟨encodeU_opcode .., encodeU_rd ..⟩
theorem auipc (rd : Reg) (imm20 : BitVec 20) : Statement (.auipc rd imm20) := ⟨encodeU_opcode .., encodeU_rd ..⟩
theorem addi (rd rs1 : Reg) (imm : BitVec 12) : Statement (.addi rd rs1 imm) := ⟨encodeI_opcode .., encodeI_rd ..⟩
theorem slti (rd rs1 : Reg) (imm : BitVec 12) : Statement (.slti rd rs1 imm) := ⟨encodeI_opcode .., encodeI_rd ..⟩
theorem sltiu (rd rs1 : Reg) (uimm : BitVec 12) : Statement (.sltiu rd rs1 uimm) := ⟨encodeI_opcode .., encodeI_rd ..⟩
theorem xori (rd rs1 : Reg) (imm : BitVec 12) : Statement (.xori rd rs1 imm) := ⟨encodeI_opcode .., encodeI_rd ..⟩
theorem ori (rd rs1 : Reg) (imm : BitVec 12) : Statement (.ori rd rs1 imm) := ⟨encodeI_opcode .., encodeI_rd ..⟩
theorem andi (rd rs1 : Reg) (imm : BitVec 12) : Statement (.andi rd rs1 imm) := ⟨encodeI_opcode .., encodeI_rd ..⟩
theorem slli (rd rs1 : Reg) (uimm : BitVec 12) : Statement (.slli rd rs1 uimm) := ⟨encodeI_opcode .., encodeI_rd ..⟩
theorem srli (rd rs1 : Reg) (uimm : BitVec 12) : Statement (.srli rd rs1 uimm) := ⟨encodeI_opcode .., encodeI_rd ..⟩
theorem srai (rd rs1 : Reg) (uimm : BitVec 12) : Statement (.srai rd rs1 uimm) := ⟨encodeI_opcode .., encodeI_rd ..⟩
theorem jal (rd : Reg) (offset : BitVec 21) : Statement (.jal rd offset) := ⟨encodeJ_opcode .., encodeJ_rd ..⟩
theorem add (rd rs1 rs2 : Reg) : Statement (.add rd rs1 rs2) := ⟨encodeR_opcode .., encodeR_rd ..⟩
theorem sub (rd rs1 rs2 : Reg) : Statement (.sub rd rs1 rs2) := ⟨encodeR_opcode .., encodeR_rd ..⟩

end Sys2Proof.Laws.EncodedOpcode
end

