-- ==== Sys2Proof/Laws/Step.lean ====
section
/-! SUPPORT. What a fetch, a dispatch and a step can answer: the inversion lemmas every later proof cites. -/

namespace Sys2Proof.Machine

/-- Everything a fetch can answer. -/
theorem fetch_cases (s : State) :
    (s.pc.toNat + 4 ≤ s.cfg.memCapacity ∧
      fetch s = .ok (wordOfBytes (s.mem.bytesAt s.cfg.memFill s.pc.toNat 4))) ∨
    (s.cfg.memCapacity < s.pc.toNat + 4 ∧ fetch s = .error .outOfBounds) := by
  unfold fetch State.memRead
  by_cases h : s.pc.toNat + 4 ≤ s.cfg.memCapacity
  · exact .inl ⟨h, by rw [if_pos h]⟩
  · exact .inr ⟨by omega, by rw [if_neg h]⟩

/-- A fetch depends on pc, Memory and the parameters alone. -/
theorem fetch_congr {s t : State} (h : SameButRegs s t) : fetch s = fetch t := by
  obtain ⟨hp, hm, hc⟩ := h
  unfold fetch State.memRead
  rw [hp, hm, hc]

/-- Everything a dispatch can answer: the instruction's meaning, or UnknownInstruction. -/
theorem dispatch_cases (w : InstrWord) (s : State) :
    (∃ i, decodeWord w = .ok i ∧ dispatch w s = exec i s) ∨
    (∃ e, decodeWord w = .error e ∧ dispatch w s = .fault .unknownInstruction) := by
  unfold dispatch
  cases h : decodeWord w with
  | ok i => exact .inl ⟨i, rfl, rfl⟩
  | error e => exact .inr ⟨e, rfl, rfl⟩

/-- Everything a step can do: one of four outcomes, in the order of the tests (40_fetch_and_step.md R101). -/
theorem step_cases (s : State) :
    (fetch s = .error .outOfBounds ∧ step s = .fault .outOfBounds) ∨
    (fetch s = .ok 0#32 ∧ step s = .fault .haltSentinel) ∨
    (∃ w e, fetch s = .ok w ∧ w ≠ 0#32 ∧ decodeWord w = .error e ∧ step s = .fault .unknownInstruction) ∨
    (∃ w i, fetch s = .ok w ∧ w ≠ 0#32 ∧ decodeWord w = .ok i ∧ step s = exec i s) := by
  unfold step runStep
  rcases fetch_cases s with ⟨_, h⟩ | ⟨_, h⟩
  · rw [h]
    by_cases h0 : wordOfBytes (s.mem.bytesAt s.cfg.memFill s.pc.toNat 4) = 0#32
    · exact .inr (.inl ⟨by rw [h0], by simp only [runWord, if_pos h0]; rfl⟩)
    · simp only [runWord, if_neg h0]
      rcases dispatch_cases (wordOfBytes (s.mem.bytesAt s.cfg.memFill s.pc.toNat 4)) s with ⟨i, hd, e⟩ | ⟨x, hd, e⟩
      · exact .inr (.inr (.inr ⟨_, i, rfl, h0, hd, e⟩))
      · exact .inr (.inr (.inl ⟨_, x, rfl, h0, hd, e⟩))
  · rw [h]; exact .inl ⟨rfl, rfl⟩

/-- A step that answers a next state ran the instruction it fetched, which `commit` ended. -/
theorem step_next {s t : State} (h : step s = .next t) :
    ∃ w i, fetch s = .ok w ∧ decodeWord w = .ok i ∧ exec i s = .next t := by
  rcases step_cases s with ⟨_, e⟩ | ⟨_, e⟩ | ⟨_, _, _, _, _, e⟩ | ⟨w, i, hf, _, hd, e⟩
  · rw [e] at h; cases h
  · rw [e] at h; cases h
  · rw [e] at h; cases h
  · exact ⟨w, i, hf, hd, e ▸ h⟩

/-- Everything one pass of the run loop does to a running run. -/
theorem tick_running_cases (s : State) :
    (∃ t, step s = .next t ∧ (Run.mk s .running).tick = ⟨t, .running⟩) ∨
    (∃ f, step s = .fault f ∧ (Run.mk s .running).tick = ⟨s, RunStatus.ofFault f⟩) ∨
    (∃ c, step s = .refused c ∧ (Run.mk s .running).tick = ⟨s, .refused c⟩) := by
  unfold Run.tick
  cases h : step s with
  | next t => exact .inl ⟨t, rfl, by simp⟩
  | fault f => exact .inr (.inl ⟨f, rfl, by simp⟩)
  | refused c => exact .inr (.inr ⟨c, rfl, by simp⟩)

end Sys2Proof.Machine
end

