-- ==== Sys2Proof/Laws/Words.lean ====
section
/-! SUPPORT. A word is made of its fields: the layouts put together again, two words with the same fields are one word,
and what a match under a mask says of the fields. -/

namespace Sys2Proof

/-- The R-type layout of a word's own six fields is the word. -/
theorem encodeR_fields (w : InstrWord) :
    encodeR (funct7Field w) (rs2Field w) (rs1Field w) (funct3Field w) (rdField w) (opcodeField w) = w := by
  show w.extractLsb' 25 7 ++ w.extractLsb' 20 5 ++ w.extractLsb' 15 5 ++ w.extractLsb' 12 3 ++ w.extractLsb' 7 5 ++
    w.extractLsb' 0 7 = w
  ext i hi
  simp only [BitVec.getElem_append, BitVec.getElem_extractLsb']
  split_ifs <;> (rw [BitVec.getLsbD_eq_getElem (by omega)]; congr 1; omega)

/-- The I-type layout of a word's own fields is the word. -/
theorem encodeI_fields (w : InstrWord) :
    encodeI (imm12Field w) (rs1Field w) (funct3Field w) (rdField w) (opcodeField w) = w := by
  show w.extractLsb' 20 12 ++ w.extractLsb' 15 5 ++ w.extractLsb' 12 3 ++ w.extractLsb' 7 5 ++ w.extractLsb' 0 7 = w
  ext i hi
  simp only [BitVec.getElem_append, BitVec.getElem_extractLsb']
  split_ifs <;> (rw [BitVec.getLsbD_eq_getElem (by omega)]; congr 1; omega)

/-- The U-type layout of a word's own fields is the word. -/
theorem encodeU_fields (w : InstrWord) : encodeU (imm20Field w) (rdField w) (opcodeField w) = w := by
  show w.extractLsb' 12 20 ++ w.extractLsb' 7 5 ++ w.extractLsb' 0 7 = w
  ext i hi
  simp only [BitVec.getElem_append, BitVec.getElem_extractLsb']
  split_ifs <;> (rw [BitVec.getLsbD_eq_getElem (by omega)]; congr 1; omega)

/-- The J-type layout of a word's own fields is the word. -/
theorem encodeJ_fields (w : InstrWord) : encodeJ (offsetField w) (rdField w) (opcodeField w) = w := by
  have h20 : (offsetField w).extractLsb' 20 1 = w.extractLsb' 31 1 := by
    unfold offsetField
    rw [BitVec.extractLsb'_append_eq_of_le (by decide), BitVec.extractLsb'_append_eq_of_le (by decide),
      BitVec.extractLsb'_append_eq_of_le (by decide), BitVec.extractLsb'_append_eq_of_le (by decide)]
    exact BitVec.extractLsb'_eq_self
  have h12 : (offsetField w).extractLsb' 12 8 = w.extractLsb' 12 8 := by
    unfold offsetField
    rw [BitVec.extractLsb'_append_eq_of_le (by decide), BitVec.extractLsb'_append_eq_of_le (by decide),
      BitVec.extractLsb'_append_eq_of_le (by decide), BitVec.extractLsb'_append_eq_of_add_le (by decide)]
    exact BitVec.extractLsb'_eq_self
  have h11 : (offsetField w).extractLsb' 11 1 = w.extractLsb' 20 1 := by
    unfold offsetField
    rw [BitVec.extractLsb'_append_eq_of_le (by decide), BitVec.extractLsb'_append_eq_of_le (by decide),
      BitVec.extractLsb'_append_eq_of_add_le (by decide)]
    exact BitVec.extractLsb'_eq_self
  have h1 : (offsetField w).extractLsb' 1 10 = w.extractLsb' 21 10 := by
    unfold offsetField
    rw [BitVec.extractLsb'_append_eq_of_le (by decide), BitVec.extractLsb'_append_eq_of_add_le (by decide)]
    exact BitVec.extractLsb'_eq_self
  unfold encodeJ
  rw [h20, h12, h11, h1]
  show w.extractLsb' 31 1 ++ w.extractLsb' 21 10 ++ w.extractLsb' 20 1 ++ w.extractLsb' 12 8 ++ w.extractLsb' 7 5 ++
    w.extractLsb' 0 7 = w
  ext i hi
  simp only [BitVec.getElem_append, BitVec.getElem_extractLsb']
  split_ifs <;> (rw [BitVec.getLsbD_eq_getElem (by omega)]; congr 1; omega)

/-- Two words with the same six fields are one word. -/
theorem word_ext {v w : InstrWord} (ho : opcodeField v = opcodeField w) (hd : rdField v = rdField w)
    (h3 : funct3Field v = funct3Field w) (h1 : rs1Field v = rs1Field w) (h2 : rs2Field v = rs2Field w)
    (h7 : funct7Field v = funct7Field w) : v = w := by
  rw [← encodeR_fields v, ← encodeR_fields w, ho, hd, h3, h1, h2, h7]

theorem opcodeField_and (v w : InstrWord) : opcodeField (v &&& w) = opcodeField v &&& opcodeField w :=
  BitVec.extractLsb'_and

theorem funct3Field_and (v w : InstrWord) : funct3Field (v &&& w) = funct3Field v &&& funct3Field w :=
  BitVec.extractLsb'_and

theorem funct7Field_and (v w : InstrWord) : funct7Field (v &&& w) = funct7Field v &&& funct7Field w :=
  BitVec.extractLsb'_and

/-- A register field under a mask that clears it is 0. -/
theorem field_and_of_cleared {v m : InstrWord} {k : Nat} (h : m.extractLsb' k 5 = 0#5) :
    (v &&& m).extractLsb' k 5 = 0#5 := by
  rw [BitVec.extractLsb'_and, h, BitVec.and_zero]

/-- A match under the mask 0x0000007F says the opcode. -/
theorem match_opcode {w p : InstrWord} (h : w &&& 0x0000007F#32 = p) : opcodeField w = opcodeField p := by
  rw [← h, opcodeField_and]
  exact BitVec.and_allOnes.symm

/-- A match under the mask 0x0000707F says the opcode and funct3. -/
theorem match_funct3 {w p : InstrWord} (h : w &&& 0x0000707F#32 = p) :
    opcodeField w = opcodeField p ∧ funct3Field w = funct3Field p := by
  rw [← h, opcodeField_and, funct3Field_and]
  exact ⟨BitVec.and_allOnes.symm, BitVec.and_allOnes.symm⟩

/-- A match under the mask 0xFE00707F says the opcode, funct3 and funct7. -/
theorem match_funct7 {w p : InstrWord} (h : w &&& 0xFE00707F#32 = p) :
    opcodeField w = opcodeField p ∧ funct3Field w = funct3Field p ∧ funct7Field w = funct7Field p := by
  rw [← h, opcodeField_and, funct3Field_and, funct7Field_and]
  exact ⟨BitVec.and_allOnes.symm, BitVec.and_allOnes.symm, BitVec.and_allOnes.symm⟩

/-- The masked word of a word, from its opcode. -/
theorem and_opcodeMask (w : InstrWord) : w &&& 0x0000007F#32 = encodeR 0#7 0 0 0#3 0 (opcodeField w) := by
  refine word_ext ?_ ?_ ?_ ?_ ?_ ?_
  · rw [encodeR_opcode, opcodeField_and]; exact BitVec.and_allOnes
  · rw [encodeR_rd]; exact congrArg BitVec.toFin (field_and_of_cleared (by decide))
  · rw [encodeR_funct3, funct3Field_and]; exact BitVec.and_zero
  · rw [encodeR_rs1]; exact congrArg BitVec.toFin (field_and_of_cleared (by decide))
  · rw [encodeR_rs2]; exact congrArg BitVec.toFin (field_and_of_cleared (by decide))
  · rw [encodeR_funct7, funct7Field_and]; exact BitVec.and_zero

/-- The masked word of a word, from its opcode and funct3. -/
theorem and_funct3Mask (w : InstrWord) :
    w &&& 0x0000707F#32 = encodeR 0#7 0 0 (funct3Field w) 0 (opcodeField w) := by
  refine word_ext ?_ ?_ ?_ ?_ ?_ ?_
  · rw [encodeR_opcode, opcodeField_and]; exact BitVec.and_allOnes
  · rw [encodeR_rd]; exact congrArg BitVec.toFin (field_and_of_cleared (by decide))
  · rw [encodeR_funct3, funct3Field_and]; exact BitVec.and_allOnes
  · rw [encodeR_rs1]; exact congrArg BitVec.toFin (field_and_of_cleared (by decide))
  · rw [encodeR_rs2]; exact congrArg BitVec.toFin (field_and_of_cleared (by decide))
  · rw [encodeR_funct7, funct7Field_and]; exact BitVec.and_zero

/-- The masked word of a word, from its opcode, funct3 and funct7. -/
theorem and_funct7Mask (w : InstrWord) :
    w &&& 0xFE00707F#32 = encodeR (funct7Field w) 0 0 (funct3Field w) 0 (opcodeField w) := by
  refine word_ext ?_ ?_ ?_ ?_ ?_ ?_
  · rw [encodeR_opcode, opcodeField_and]; exact BitVec.and_allOnes
  · rw [encodeR_rd]; exact congrArg BitVec.toFin (field_and_of_cleared (by decide))
  · rw [encodeR_funct3, funct3Field_and]; exact BitVec.and_allOnes
  · rw [encodeR_rs1]; exact congrArg BitVec.toFin (field_and_of_cleared (by decide))
  · rw [encodeR_rs2]; exact congrArg BitVec.toFin (field_and_of_cleared (by decide))
  · rw [encodeR_funct7, funct7Field_and]; exact BitVec.and_allOnes

end Sys2Proof
end

