-- ==== Sys2Proof/Tests/Slice0.lean ====
section
/-! SUPPORT. The model's own tests. Expected values are those of spec/95_test_vectors.md (its section or row is named) or of
the rule named; none is the model's own answer. The `witness_` theorems show, for each statement with hypotheses, states and
operands that meet them, at the boundary of each clause. -/

namespace Sys2Proof.Tests

open Sys2Proof Sys2Proof.Machine

/-! ### Helpers -/

/-- The reset state with one word placed at pc. -/
def withWord (w : Nat) : State := State.reset.withFetchWord 32 w

/-- `withWord` with x1 and x2 set. -/
def withRegs (w : Nat) (v1 v2 : Word) : State := ((withWord w).setReg 1 v1).setReg 2 v2

/-- A register of the next state. -/
def regAfter (o : Host.Outcome State Fault Refusal) (r : Reg) : Option Word :=
  match o with
  | .next t => some (t.getReg r)
  | .fault _ => none
  | .refused _ => none

/-- The pc of the next state. -/
def pcAfter (o : Host.Outcome State Fault Refusal) : Option Word :=
  match o with
  | .next t => some t.pc
  | .fault _ => none
  | .refused _ => none

/-- The fault an outcome is. -/
def faultOf (o : Host.Outcome State Fault Refusal) : Option Fault :=
  match o with
  | .next _ => none
  | .fault f => some f
  | .refused _ => none

/-- The default parameters with another value of one. -/
def orConfig : Config := { Config.default with andiOp := .or }
def narrowConfig : Config := { Config.default with arithNarrow32 := true }
def smallConfig : Config := { Config.default with memCapacity := 4 }

/-! ### Well-formedness refuses what no encoding admits -/

theorem test_wf_refuses_srli_with_bit25 : (Instr.srli 3 1 0x021#12).wf = false := by decide
theorem test_wf_refuses_srai_without_0x400 : (Instr.srai 3 1 0x004#12).wf = false := by decide
theorem test_wf_refuses_srai_with_bit25 : (Instr.srai 3 1 0x421#12).wf = false := by decide
theorem test_wf_refuses_odd_jal : (Instr.jal 1 0x000003#21).wf = false := by decide
theorem test_wf_accepts_slli_field_33 : (Instr.slli 3 1 0x021#12).wf = true := by decide

/-! ### Decoding, from words written out from the spec's encodings (95 sections 2.1 to 2.8) -/

theorem test_decode_lui : decodeWord 0b00010010001101000101_00010_0110111#32 = .ok (.lui 2 0x12345#20) := by decide
theorem test_decode_auipc : decodeWord 0b00000000000000000001_00001_0010111#32 = .ok (.auipc 1 1#20) := by decide
theorem test_decode_addi : decodeWord 0b000000000101_00000_000_00001_0010011#32 = .ok (.addi 1 0 5#12) := by decide
theorem test_decode_slti : decodeWord 0b000000000101_00001_010_00011_0010011#32 = .ok (.slti 3 1 5#12) := by decide
theorem test_decode_sltiu : decodeWord 0b111111111111_00001_011_00011_0010011#32 = .ok (.sltiu 3 1 0xFFF#12) := by
  decide
theorem test_decode_xori : decodeWord 0b000011111111_00001_100_00011_0010011#32 = .ok (.xori 3 1 0x0FF#12) := by decide
theorem test_decode_ori : decodeWord 0b000000001111_00001_110_00011_0010011#32 = .ok (.ori 3 1 0x00F#12) := by decide
theorem test_decode_andi : decodeWord 0b000011110000_00001_111_00011_0010011#32 = .ok (.andi 3 1 0x0F0#12) := by decide
theorem test_decode_slli_field_33 :
    decodeWord 0b0000001_00001_00001_001_00011_0010011#32 = .ok (.slli 3 1 0x021#12) := by decide
theorem test_decode_srli : decodeWord 0b0000000_00100_00001_101_00011_0010011#32 = .ok (.srli 3 1 4#12) := by decide
theorem test_decode_srai : decodeWord 0b0100000_00001_00001_101_00011_0010011#32 = .ok (.srai 3 1 0x401#12) := by decide
theorem test_decode_add : decodeWord 0b0000000_00010_00001_000_00011_0110011#32 = .ok (.add 3 1 2) := by decide
theorem test_decode_sub : decodeWord 0b0100000_00001_00011_000_00100_0110011#32 = .ok (.sub 4 3 1) := by decide

/-- `jal x1, +8` (S4): imm[20], imm[10:1], imm[11], imm[19:12], rd, opcode. -/
theorem test_decode_jal : decodeWord 0b0_0000000100_0_00000000_00001_1101111#32 = .ok (.jal 1 8#21) := by decide

/-- The two words of alternating immediate bits, which tell every wrong placement of the four groups apart (2.1). -/
theorem test_decode_jal_alternating :
    decodeWord 0x2ABAA0EF#32 = .ok (.jal 1 699050#21) ∧ decodeWord 0x554550EF#32 = .ok (.jal 1 349524#21) := by decide

theorem test_decode_jal_negative : decodeWord 0xFFDFF06F#32 = .ok (.jal 0 (BitVec.ofInt 21 (-4))) := by decide

/-- The immediates of the word 0x80000093 (2.1). -/
theorem test_immediates_0x80000093 :
    immU (imm20Field 0x80000093#32) = 0xFFFFFFFF80000000#64 ∧ immI (imm12Field 0x80000093#32) = BitVec.ofInt 64 (-2048) ∧
      uimmI (imm12Field 0x80000093#32) = 2048#64 ∧ immJ (offsetField 0x80000093#32) = BitVec.ofInt 64 (-1048576) := by
  decide

/-- Words of the absent families and the other unknown words (2.6, 2.7, 2.10). -/
theorem test_unknown_words :
    [0x00002103#32, 0x00102023#32, 0x00000463#32, 0x00008067#32, 0x0FF0000F#32, 0x00000073#32, 0x0020A1AF#32,
      0x002081D3#32, 0x0020F1B3#32, 0x022081B3#32, 0x0010809B#32, 0x002081BB#32, 0x00010001#32, 0xFFFFFFFF#32,
      0x80000000#32, 0x0210D193#32, 0x4210D193#32, 0xFE10D193#32, 0x202081B3#32, 0x4020D1B3#32].all
      (fun w => (match decodeWord w with | .ok _ => false | .error _ => true)) = true := by decide

/-- The bytes 93 00 50 00 are the word 0x00500093 (F1); three bytes are no instruction. -/
theorem test_decode_bytes :
    decode [0x93#8, 0x00#8, 0x50#8, 0x00#8, 0xAA#8] = .ok (.addi 1 0 5#12, [0xAA#8]) ∧
      decode [0x93#8, 0x00#8, 0x50#8] = .error .truncated := by decide

/-! ### One step of each instruction (95 sections 2.2 to 2.8): at most two each -/

theorem test_lui_sign_extends : regAfter (step (withWord 0x800001B7)) 3 = some 0xFFFFFFFF80000000#64 := by decide
theorem test_auipc_reads_its_own_address :
    regAfter (step (((State.reset.setPc 8#64)).withFetchWord 32 0x00001197)) 3 = some 0x1008#64 := by decide
theorem test_addi_wraps : regAfter (step (withRegs 0x00108193 0x7FFFFFFFFFFFFFFF#64 0#64)) 3 = some 0x8000000000000000#64 := by
  decide
theorem test_addi_source_is_destination : regAfter (step (withRegs 0x00108093 7#64 0#64)) 1 = some 8#64 := by decide
theorem test_slti_is_64_bit : regAfter (step (withRegs 0x0000A193 0xFFFFFFFF#64 0#64)) 3 = some 0#64 := by decide
theorem test_slti_signed : regAfter (step (withRegs 0x0000A193 0xFFFFFFFFFFFFFFFF#64 0#64)) 3 = some 1#64 := by decide
theorem test_sltiu_zero_extends : regAfter (step (withRegs 0xFFF0B193 0x1388#64 0#64)) 3 = some 0#64 := by decide
theorem test_sltiu_below : regAfter (step (withRegs 0xFFF0B193 0xFFE#64 0#64)) 3 = some 1#64 := by decide
theorem test_xori_inverts : regAfter (step (withRegs 0xFFF0C193 0x1234#64 0#64)) 3 = some 0xFFFFFFFFFFFFEDCB#64 := by decide
theorem test_ori_negative : regAfter (step (withRegs 0x8000E193 0x100#64 0#64)) 3 = some 0xFFFFFFFFFFFFF900#64 := by decide
theorem test_andi_and : regAfter (step (withRegs 0x0FF0F193 0x12345678#64 0#64)) 3 = some 0x78#64 := by decide
theorem test_andi_or :
    regAfter (step { withRegs 0x0FF0F193 0x12345678#64 0#64 with cfg := orConfig }) 3 = some 0x123456FF#64 := by decide
theorem test_slli_ignores_high_bits : regAfter (step (withRegs 0xFE109193 5#64 0#64)) 3 = some 10#64 := by decide
theorem test_slli_is_64_bit : regAfter (step (withRegs 0x01F09193 0xFFFFFFFF#64 0#64)) 3 = some 0x7FFFFFFF80000000#64 := by
  decide
theorem test_srli_zero_fills :
    regAfter (step (withRegs 0x01F0D193 0xFFFFFFFFFFFFFFFF#64 0#64)) 3 = some 0x1FFFFFFFF#64 := by decide
theorem test_srai_sign_fills :
    regAfter (step (withRegs 0x41F0D193 0x8000000000000000#64 0#64)) 3 = some 0xFFFFFFFF00000000#64 := by decide
theorem test_srai_bit31_is_no_sign : regAfter (step (withRegs 0x4040D193 0x80000000#64 0#64)) 3 = some 0x08000000#64 := by
  decide
theorem test_jal_links_and_jumps :
    regAfter (step (withWord 0x008000EF)) 1 = some 4#64 ∧ pcAfter (step (withWord 0x008000EF)) = some 8#64 := by decide
theorem test_jal_below_zero :
    pcAfter (step ((State.reset.setPc 4#64).withFetchWord 32 0xFF9FF0EF)) = some 0xFFFFFFFFFFFFFFFC#64 := by decide
theorem test_add_narrowed :
    regAfter (step { withRegs 0x002081B3 0x7FFFFFFF#64 1#64 with cfg := narrowConfig }) 3 =
      some 0xFFFFFFFF80000000#64 := by decide
theorem test_add_not_narrowed : regAfter (step (withRegs 0x002081B3 0x7FFFFFFF#64 1#64)) 3 = some 0x80000000#64 := by decide
theorem test_sub_order : regAfter (step (withRegs 0x402081B3 5#64 7#64)) 3 = some 0xFFFFFFFFFFFFFFFE#64 := by decide
theorem test_write_to_x0_is_discarded :
    regAfter (step (withRegs 0x00508013 7#64 0#64)) 0 = some 0#64 ∧
      pcAfter (step (withRegs 0x00508013 7#64 0#64)) = some 4#64 := by decide

/-! ### Fetch, step and the host (95 section 2.9) -/

theorem test_f5_last_fetchable_address :
    pcAfter (step ((State.reset.setPc 8092#64).withFetchWord 32 0x00500093)) = some 8096#64 := by decide
theorem test_f6_f7_f8_out_of_bounds :
    [8093#64, 8094#64, 8095#64, 8096#64, 0xFFFFFFFFFFFFFFFC#64].all
      (fun p => faultOf (step (State.reset.setPc p)) == some .outOfBounds) = true := by decide
theorem test_f2_f3_sentinel_is_the_zero_word_only :
    faultOf (step State.reset) = some .haltSentinel ∧ faultOf (step (withWord 0x80000000)) = some .unknownInstruction := by
  decide
theorem test_f12_no_alignment : pcAfter (step ((State.reset.setPc 2#64).withFetchWord 32 0x00500093)) = some 6#64 := by
  decide
theorem test_f15_f16_register_index :
    State.reset.hostGetRegister 32 = .error .invalidRegisterIndex ∧ State.reset.hostGetRegister 31 = .ok 0#64 := by decide
theorem test_f17_f18_load :
    (match (State.resetWith smallConfig).load [1#8, 2#8, 3#8, 4#8, 5#8] with
      | .refused c => c == .imageTooLong | .next _ => false | .fault _ => false) = true ∧
    (match (State.resetWith smallConfig).load [1#8, 2#8, 3#8, 4#8] with
      | .next t => t.readByte 3 == .ok 4#8 | .refused _ => false | .fault _ => false) = true := by decide
theorem test_store_of_the_fill_byte_removes_the_cell :
    Memory.store 0#8 [(1, 5#8), (2, 6#8)] 1 0#8 = [(2, 6#8)] ∧
      Memory.store 0#8 [(1, 5#8), (4, 6#8)] 2 7#8 = [(1, 5#8), (2, 7#8), (4, 6#8)] := by decide

/-- The host's two questions on one word. -/
theorem test_host_questions :
    decodeTableWord 32 0x00500093 = some (.addi 1 0 5#12) ∧
      regAfter (step (State.reset.withFetchWord 32 0x00500093)) 1 = some 5#64 := by decide

/-! ### Witnesses: states and operands that meet the hypotheses of each statement -/

theorem witness_DecodeOfEncodeIsTheInstruction :
    (Instr.srli 3 1 0x01F#12).wf = true ∧ (Instr.srai 3 1 0x41F#12).wf = true ∧
      (Instr.jal 31 0x100000#21).wf = true ∧ (Instr.addi 0 31 0xFFF#12).wf = true := by decide

theorem witness_EncodeOfDecodedWordIsTheWord : decodeWord 0xFE109193#32 = .ok (.slli 3 1 0xFE1#12) := by decide

theorem witness_DecoderAgreesWithMatchAndMask :
    (∃ i, decodeWord 0x4010D193#32 = .ok i ∧ i.mnemonic = .srai) ∧
      ∃ r ∈ opcodeTable, r.mnemonic = .srai ∧ 0x4010D193#32 &&& r.mask = r.pattern :=
  ⟨⟨_, rfl, rfl⟩, ⟨.srai, 0x40005013#32, 0xFE00707F#32⟩, by decide⟩

theorem witness_OpcodeRowsDoNotOverlap :
    ∃ r ∈ opcodeTable, 0x00500093#32 &&& r.mask = r.pattern := ⟨⟨.addi, 0x00000013#32, 0x0000707F#32⟩, by decide⟩

theorem witness_FieldsOfABuiltWord :
    0x40118233#32 = BitVec.ofNat 32 ((0x20#7).toNat <<< 25 ||| (1 : Reg).val <<< 20 ||| (3 : Reg).val <<< 15 |||
      (0#3).toNat <<< 12 ||| (4 : Reg).val <<< 7 ||| (0x33#7).toNat) := by decide

/-- A word of each class of 30_encoding.md R73. -/
theorem witness_UnknownWords :
    opcodeField 0xFFFFFFFF#32 = 0x7F#7 ∧
    (opcodeField 0x0210D193#32 = 0x13#7 ∧ funct3Field 0x0210D193#32 = 0b101#3 ∧ funct7Field 0x0210D193#32 = 1#7) ∧
    (opcodeField 0x0020F1B3#32 = 0x33#7 ∧ funct3Field 0x0020F1B3#32 = 0b111#3) ∧
    (opcodeField 0x022081B3#32 = 0x33#7 ∧ funct3Field 0x022081B3#32 = 0#3 ∧ funct7Field 0x022081B3#32 = 1#7) := by decide

theorem witness_OnlyTheZeroWordIsTheSentinel : 0x80000000#32 ≠ 0#32 ∧ opcodeField 0x80000000#32 = 0#7 := by decide

/-- A word of every row, for the match hypotheses of the fourteen instruction statements. -/
theorem witness_instruction_words :
    0xFFFFFFB7#32 &&& 0x0000007F#32 = 0x00000037#32 ∧ 0xFFFFFF97#32 &&& 0x0000007F#32 = 0x00000017#32 ∧
    0xFFF08193#32 &&& 0x0000707F#32 = 0x00000013#32 ∧ 0x8000A193#32 &&& 0x0000707F#32 = 0x00002013#32 ∧
    0xFFF0B193#32 &&& 0x0000707F#32 = 0x00003013#32 ∧ 0xFFF0C193#32 &&& 0x0000707F#32 = 0x00004013#32 ∧
    0x8000E193#32 &&& 0x0000707F#32 = 0x00006013#32 ∧ 0x8000F193#32 &&& 0x0000707F#32 = 0x00007013#32 ∧
    0xFE109193#32 &&& 0x0000707F#32 = 0x00001013#32 ∧ 0x01F0D193#32 &&& 0xFE00707F#32 = 0x00005013#32 ∧
    0x41F0D193#32 &&& 0xFE00707F#32 = 0x40005013#32 ∧ 0x800002EF#32 &&& 0x0000007F#32 = 0x0000006F#32 ∧
    0x001081B3#32 &&& 0xFE00707F#32 = 0x00000033#32 ∧ 0x401081B3#32 &&& 0xFE00707F#32 = 0x40000033#32 := by decide

theorem witness_AndiFollowsAndiOp :
    State.reset.cfg.andiOp = .and ∧ (State.resetWith orConfig).cfg.andiOp = .or := by decide

theorem witness_ResultDependsOnSourceRegistersOnly :
    SameButRegs (State.reset.setReg 3 1#64) State.reset ∧
      (∀ r ∈ (Instr.add 4 1 2).sources, (State.reset.setReg 3 1#64).getReg r = State.reset.getReg r) ∧
      State.reset.setReg 3 1#64 ≠ State.reset :=
  ⟨⟨rfl, rfl, rfl⟩, by decide, by decide⟩

theorem witness_RegisterZeroIsHardWired : (Instr.jal 0 8#21).dest = 0 ∧ (Instr.addi 0 1 5#12).dest = 0 := by decide

theorem witness_RegisterWritesNarrow :
    (31 : Reg) ≠ 0 ∧ (0 : Reg) ≠ 31 ∧ State.reset.cfg.arithNarrow32 = false ∧
      (State.resetWith narrowConfig).cfg.arithNarrow32 = true := by decide

/-- At the two ends of the range: the results -2^31 and 2^31 - 1. -/
theorem witness_WidthReadingsAgree :
    (∃ t, exec (.lui 1 0x80000#20) State.reset = .next t ∧ (t.getReg 1).toInt = -(2 : Int) ^ 31) ∧
      ∃ t, exec (.addi 1 2 0xFFF#12) (State.reset.setReg 2 0x80000000#64) = .next t ∧ (t.getReg 1).toInt = 2 ^ 31 - 1 :=
  ⟨⟨_, rfl, by decide⟩, _, rfl, by decide⟩

theorem witness_HostAccessors : 31 < 32 ∧ 31 < 32 ∧ 0 < 32 := by decide

theorem witness_CanonicalMemories :
    Memory.wf Config.default (withWord 0x00500093).mem = true ∧ (withWord 0x00500093).mem = [(0, 0x93#8), (2, 0x50#8)] := by
  decide

theorem witness_ReadWindow_MemRead :
    State.reset.cfg.memCapacity ≤ 8096 ∧ 8095 < State.reset.cfg.memCapacity ∧ 8092 + 4 ≤ State.reset.cfg.memCapacity ∧
      State.reset.cfg.memCapacity < 8093 + 4 := by decide

theorem witness_ReservedWrite :
    Memory.wf State.reset.cfg State.reset.mem = true ∧ State.reset.cfg.memCapacity < 8093 + 4 ∧
      8092 + 4 ≤ State.reset.cfg.memCapacity := by decide

theorem witness_LoadCopiesTheImage :
    Memory.wf smallConfig (State.resetWith smallConfig).mem = true ∧
      smallConfig.memCapacity < [1#8, 2#8, 3#8, 4#8, 5#8].length ∧ [1#8, 2#8, 3#8, 4#8].length ≤ smallConfig.memCapacity := by
  decide

/-- The last fetchable pc and one that is not a multiple of 4; used for the fetch and step statements. -/
theorem witness_fetch_bounds :
    (State.reset.setPc 8092#64).pc.toNat + 4 ≤ (State.reset.setPc 8092#64).cfg.memCapacity ∧
      (State.reset.setPc 6#64).pc.toNat + 4 ≤ (State.reset.setPc 6#64).cfg.memCapacity ∧
      (State.reset.setPc 8093#64).cfg.memCapacity < (State.reset.setPc 8093#64).pc.toNat + 4 ∧
      Memory.wf (State.reset.setPc 8092#64).cfg (State.reset.setPc 8092#64).mem = true := by decide

theorem witness_StepRunsTheDecodedInstruction :
    (withWord 0x00500093).memRead 0 4 = .ok [0x93#8, 0x00#8, 0x50#8, 0x00#8] ∧
      decode [0x93#8, 0x00#8, 0x50#8, 0x00#8] = .ok (.addi 1 0 5#12, []) := by decide

/-- The three fetched words of the step's cases: the zero word, an unknown word, an instruction. -/
theorem witness_step_cases :
    fetch State.reset = .ok 0#32 ∧
      (fetch (withWord 0xFFFFFFFF) = .ok 0xFFFFFFFF#32 ∧ decodeWord 0xFFFFFFFF#32 = .error (.unknownOpcode 0x7F#7)) ∧
      (fetch (withWord 0x00500093) = .ok 0x00500093#32 ∧ decodeWord 0x00500093#32 = .ok (.addi 1 0 5#12)) ∧
      fetch (State.reset.setPc 8093#64) = .error .outOfBounds := by decide

theorem witness_EndedRunIsFinal : ((Run.start State.reset).ticks 1).status ≠ .running := by decide

theorem witness_StepRaisesOnlyItsThreeEnds :
    step State.reset = .fault .haltSentinel ∧ step (State.reset.setPc 8093#64) = .fault .outOfBounds ∧
      step (withWord 0xFFFFFFFF) = .fault .unknownInstruction := ⟨rfl, rfl, rfl⟩

theorem witness_AbsentFamilies :
    opcodeField 0x00102023#32 = 0b0100011#7 ∧ opcodeField 0x002081BB#32 = 0b0111011#7 ∧
      (opcodeField 0x00010001#32).extractLsb' 0 2 ≠ 0b11#2 ∧
      (opcodeField 0x0020F1B3#32 = 0b0110011#7 ∧ funct3Field 0x0020F1B3#32 ≠ 0b000#3) ∧
      (opcodeField 0x022081B3#32 = 0b0110011#7 ∧ funct7Field 0x022081B3#32 = 0b0000001#7) := by decide

/-- A step of each kind: a `jal` and a sequential instruction; a pass that ends the run; and the host's operations. -/
theorem witness_PcChanges_NoStepChangesMemory :
    (∃ t, step (withWord 0x008000EF) = .next t) ∧ (∃ t, step (withWord 0x00500093) = .next t) ∧
      (Run.start State.reset).tick.status ≠ .running ∧ (∃ t, State.reset.hostSetRegister 31 7#64 = .next t) ∧
      (∃ t, State.reset.load [1#8] = .next t) ∧ ∃ t, State.reset.memWrite 8092 4 1 = .next t :=
  ⟨⟨_, rfl⟩, ⟨_, rfl⟩, by decide, ⟨_, rfl⟩, ⟨_, rfl⟩, _, rfl⟩

theorem witness_SequentialAdvanceNeverWraps :
    (withWord 0x00500093).cfg.legal = true ∧ fetch (withWord 0x00500093) = .ok 0x00500093#32 ∧
      decodeWord 0x00500093#32 = .ok (.addi 1 0 5#12) ∧ (∀ rd o, Instr.addi 1 0 5#12 ≠ .jal rd o) ∧
      ∃ t, step (withWord 0x00500093) = .next t :=
  ⟨by decide, by decide, by decide, nofun, _, rfl⟩

/-- The smallest and the largest distance below 0 a jump from address 0 can go. -/
theorem witness_JumpBelowZero :
    State.reset.cfg.legal = true ∧ State.reset.pc.toNat + (BitVec.ofInt 21 (-2)).toInt < 0 ∧
      State.reset.pc.toNat + (BitVec.ofInt 21 (-1048576)).toInt < 0 := by decide

theorem witness_boot :
    (∃ s, boot smallConfig [1#8, 2#8, 3#8, 4#8] = .next s) ∧ (∃ s, boot Config.default [] = .next s) ∧
      smallConfig.legal = true ∧ Config.legal { Config.default with memCapacity := 2 ^ 63 } = true :=
  ⟨⟨_, rfl⟩, ⟨_, rfl⟩, by decide, by decide⟩

/-- Offsets of the three clauses about Memory: inside, the first beyond, the last one, and capacity itself. -/
theorem witness_MemoryOfARun :
    0 < [1#8].length ∧ ([1#8] : List Byte).length ≤ 1 ∧ 8095 < Config.default.memCapacity ∧
      Config.default.memCapacity ≤ 8096 := by decide

/-- A state that meets the invariant and steps, reached by no run from reset under the default parameters. -/
theorem witness_EveryStepKeepsTheInvariant :
    ∃ s, StateInv s ∧ (∃ t, step s = .next t) ∧ s.getReg 5 = 0xFFFFFFFF80000000#64 ∧ s.cfg = narrowConfig :=
  ⟨((State.resetWith narrowConfig).setReg 5 0x80000000#64).withFetchWord 32 0x008000EF,
    ⟨by decide, by decide, by decide, by decide, by decide⟩, ⟨_, rfl⟩, by decide, by decide⟩

theorem witness_ControlFlow : SameButRegs ((withWord 0x008000EF).setReg 7 9#64) (withWord 0x008000EF) := ⟨rfl, rfl, rfl⟩

end Sys2Proof.Tests
end

section
/-! PROOF. What `x[i] <- v` stores under each value of ARITH_NARROW32 (00_scope.md R10). -/

namespace Sys2Proof.Machine

/-- Without ARITH_NARROW32 the value itself is stored. -/
theorem narrowed_of_wide {c : Config} (h : c.arithNarrow32 = false) (v : Word) : narrowed c v = v := by
  simp [narrowed, h]

/-- With ARITH_NARROW32 the stored value is `sext_32(v)`. -/
theorem narrowed_of_narrow {c : Config} (h : c.arithNarrow32 = true) (v : Word) :
    narrowed c v = (v.setWidth 32).signExtend 64 := by
  simp [narrowed, h]

/-- The signed value of the low 32 bits is the signed value of the whole word, reduced to the signed 32-bit range. -/
theorem toInt_low32 (v : Word) : (v.setWidth 32).toInt = v.toInt.bmod (2 ^ 32) := by
  rw [BitVec.toInt_setWidth, BitVec.toInt_eq_toNat_bmod, Int.bmod_bmod_of_dvd (pow_dvd_pow 2 (by decide))]

/-- `sext_32` as integer arithmetic. -/
theorem sext32_eq_ofInt_bmod (v : Word) :
    (v.setWidth 32).signExtend 64 = BitVec.ofInt 64 (v.toInt.bmod (2 ^ 32)) := by
  rw [BitVec.signExtend, toInt_low32]

namespace State

/-- A written register other than 0 reads the narrowed value. -/
theorem getReg_setReg_same (s : State) {i : Reg} (hi : i ≠ 0) (v : Word) :
    (s.setReg i v).getReg i = narrowed s.cfg v := by
  simp [getReg_setReg, hi]

/-- A register write leaves every other register as it was. -/
theorem getReg_setReg_of_ne (s : State) {i r : Reg} (h : r ≠ i) (v : Word) :
    (s.setReg i v).getReg r = s.getReg r := by
  by_cases hr : r = 0
  · simp [hr]
  · simp [getReg_setReg, hr, h]

end State

/-- Settles O30: by the read-after-write law, with `sext_32` read as a reduction modulo 2^32. -/
theorem registerWritesNarrowAsTheParameterSays : Obligations.RegisterWritesNarrowAsTheParameterSays := by
  intro s i v hi
  have hread := State.getReg_setReg_same s hi v
  refine ⟨fun hwide => ?_, fun hnarrow => ?_, fun r hr => State.getReg_setReg_of_ne s hr v,
    State.setReg_pc s i v, State.setReg_mem s i v, State.setReg_cfg s i v⟩
  · rw [hread, narrowed_of_wide hwide]
  · rw [hread, narrowed_of_narrow hnarrow, sext32_eq_ofInt_bmod]

end Sys2Proof.Machine
end

section
/-! PROOF. What one instruction does to pc, to the registers and to the rest of the state: the rules for `exec` and for a
step, read off `exec_eq_commit` and `commit_spec`, that the statements about the state share. -/

namespace Sys2Proof.Machine

/-- Everything an instruction does: it completes, writes its destination alone, and moves pc as 10_state.md R27 says. -/
theorem exec_spec (i : Instr) (s : State) :
    ∃ t v, exec i s = .next t ∧ WritesOnly i.dest v s t ∧ t.mem = s.mem ∧ t.x[0] = s.x[0] ∧
      ((t.pc = s.pc + 4#64 ∧ ∀ rd o, i ≠ .jal rd o) ∨ (∃ rd o, i = .jal rd o ∧ t.pc = s.pc + immJ o)) := by
  obtain ⟨v, n, he, hn⟩ := exec_eq_commit i s
  obtain ⟨t, hc⟩ := commit_completes i.dest v n s
  obtain ⟨hw, rfl, hm, hx⟩ := commit_spec hc
  exact ⟨t, v, he.trans hc, hw, hm, hx, hn⟩

/-- Everything a step that answers a next state did: it ran the instruction it fetched. -/
theorem step_next_spec {s t : State} (h : step s = .next t) :
    ∃ w i v, fetch s = .ok w ∧ decodeWord w = .ok i ∧ WritesOnly i.dest v s t ∧ t.mem = s.mem ∧ t.x[0] = s.x[0] ∧
      ((t.pc = s.pc + 4#64 ∧ ∀ rd o, i ≠ .jal rd o) ∨ (∃ rd o, i = .jal rd o ∧ t.pc = s.pc + immJ o)) := by
  obtain ⟨w, i, hf, hd, he⟩ := step_next h
  obtain ⟨t', v, he', hspec⟩ := exec_spec i s
  cases he.symm.trans he'
  exact ⟨w, i, v, hf, hd, hspec⟩

/-- A fetch succeeds only where its four bytes exist (40_fetch_and_step.md R91). -/
theorem fetch_ok_bound {s : State} {w : InstrWord} (h : fetch s = .ok w) : s.pc.toNat + 4 ≤ s.cfg.memCapacity := by
  rcases fetch_cases s with ⟨hb, _⟩ | ⟨_, he⟩
  · exact hb
  · cases he.symm.trans h

/-- A step whose four bytes do not exist is OutOfBounds. -/
theorem step_outOfBounds {s : State} (h : s.cfg.memCapacity < s.pc.toNat + 4) : step s = .fault .outOfBounds := by
  rcases step_cases s with ⟨_, e⟩ | ⟨hf, _⟩ | ⟨_, _, hf, _⟩ | ⟨_, _, hf, _⟩
  · exact e
  all_goals exact absurd (fetch_ok_bound hf) (by omega)

/-- The two ends of the legal range of MEM_CAPACITY (00_scope.md R6). -/
theorem legal_iff (c : Config) : c.legal = true ↔ 4 ≤ c.memCapacity ∧ c.memCapacity ≤ 2 ^ 63 := by
  simp [Config.legal]

end Sys2Proof.Machine
end

section
/-! PROOF. The invariant of the machine: it holds after reset and every step keeps it. pc stays even because 4 and every
decoded jump offset are even; registers stay narrowed because the narrowing is idempotent. -/

namespace Sys2Proof.Machine

/-- The sum of two even words is even. -/
theorem add_even {a b : Word} (ha : a.getLsbD 0 = false) (hb : b.getLsbD 0 = false) : (a + b).getLsbD 0 = false := by
  rw [BitVec.getLsbD_add (by decide), ha, hb, BitVec.carry_zero]; rfl

/-- Widening a jump offset keeps its bit 0. -/
theorem immJ_getLsbD_zero (o : BitVec 21) : (immJ o).getLsbD 0 = o.getLsbD 0 := by
  unfold immJ; rw [BitVec.getLsbD_signExtend]; rfl

/-- The decoder answers even jump offsets only (30_encoding.md R67). -/
theorem decoded_jal_even {w : InstrWord} {rd : Reg} {o : BitVec 21} (h : decodeWord w = .ok (.jal rd o)) :
    o.getLsbD 0 = false :=
  eq_of_beq (decodeWord_wf h)

/-- A register write keeps every register the narrowing of itself. -/
theorem narrowRegs_of_writesOnly {rd : Reg} {v : Word} {s t : State} (h : WritesOnly rd v s t)
    (hs : ∀ r, narrowed s.cfg (s.getReg r) = s.getReg r) (r : Reg) : narrowed t.cfg (t.getReg r) = t.getReg r := by
  obtain ⟨hregs, _, hcfg⟩ := h
  rw [hregs, hcfg]
  split
  · exact narrowed_zero _
  split
  · exact narrowed_narrowed _ _
  · exact hs r

/-- A state reached by one register write and a move to an even pc meets the invariant when the state before does. -/
theorem stateInv_of_writesOnly {rd : Reg} {v : Word} {s t : State} (hs : StateInv s) (hw : WritesOnly rd v s t)
    (hm : t.mem = s.mem) (hx : t.x[0] = s.x[0]) (hpc : t.pc.getLsbD 0 = false) : StateInv t := by
  have hnarrow := narrowRegs_of_writesOnly hw hs.narrowRegs
  obtain ⟨_, _, hcfg⟩ := hw
  exact ⟨hcfg ▸ hs.legalParameters, by rw [hcfg, hm]; exact hs.memoryCanonical, hx.trans hs.zeroEntry, hpc, hnarrow⟩

/-- Settles O56: a step is one register write and a move of pc, by 4 or by a decoded offset, both even. -/
theorem everyStepKeepsTheInvariant : Obligations.EveryStepKeepsTheInvariant := by
  intro s t hs h
  obtain ⟨w, i, v, _, hd, hw, hm, hx, ⟨hpc, _⟩ | ⟨rd, o, rfl, hpc⟩⟩ := step_next_spec h
  · exact stateInv_of_writesOnly hs hw hm hx (hpc ▸ add_even hs.pcEven rfl)
  · have ho : (immJ o).getLsbD 0 = false := (immJ_getLsbD_zero o).trans (decoded_jal_even hd)
    exact stateInv_of_writesOnly hs hw hm hx (hpc ▸ add_even hs.pcEven ho)

/-- Every register reads 0 after reset (70_reset_and_hazards.md R190). -/
@[simp] theorem State.getReg_resetWith (c : Config) (r : Reg) : (State.resetWith c).getReg r = 0#64 := by
  simp [State.getReg, State.resetWith]

/-- The reset state under legal parameters meets the invariant. -/
theorem stateInv_resetWith {c : Config} (h : c.legal = true) : StateInv (State.resetWith c) where
  legalParameters := h
  memoryCanonical := State.resetWith_wf c
  zeroEntry := by simp [State.resetWith]
  pcEven := BitVec.getLsbD_zero
  narrowRegs := fun r => by simp

/-- Settles O55: the default parameters are legal. -/
theorem resetMeetsTheInvariant : Obligations.ResetMeetsTheInvariant :=
  ⟨stateInv_resetWith (by decide), fun _ => stateInv_resetWith⟩

end Sys2Proof.Machine
end

section
/-! PROOF. What an instruction writes, what its result depends on, and register 0 (10_state.md R22, R23). -/

namespace Sys2Proof.Machine

/-- Settles O27: `exec_spec`, with its two cases of pc read in the statement's own table. -/
theorem everyInstructionCompletesAndWritesOnlyItsDestination :
    Obligations.EveryInstructionCompletesAndWritesOnlyItsDestination := by
  intro i s
  obtain ⟨t, v, he, hw, hm, _, ⟨hpc, hseq⟩ | ⟨rd, o, rfl, hpc⟩⟩ := exec_spec i s
  · refine ⟨t, v, he, hw, hm, ?_⟩
    cases i with
    | jal rd o => exact absurd rfl (hseq rd o)
    | _ => exact hpc
  · exact ⟨t, v, he, hw, hm, hpc⟩

/-- Two states with the same pc, parameters and source registers commit the same value and the same next pc. -/
theorem exec_commits_alike (i : Instr) {s s' : State} (hpc : s.pc = s'.pc) (hcfg : s.cfg = s'.cfg)
    (hsrc : ∀ r ∈ i.sources, s.getReg r = s'.getReg r) :
    ∃ v n, exec i s = commit i.dest v n s ∧ exec i s' = commit i.dest v n s' := by
  cases i with
  | lui | auipc | jal => exact ⟨_, _, rfl, by rw [hpc]; rfl⟩
  | addi _ rs1 _ | slti _ rs1 _ | sltiu _ rs1 _ | xori _ rs1 _ | ori _ rs1 _ | slli _ rs1 _ | srli _ rs1 _
  | srai _ rs1 _ =>
    have h1 : s.getReg rs1 = s'.getReg rs1 := hsrc rs1 (.head _)
    exact ⟨_, _, rfl, by rw [hpc, h1]; rfl⟩
  | andi _ rs1 _ =>
    have h1 : s.getReg rs1 = s'.getReg rs1 := hsrc rs1 (.head _)
    exact ⟨_, _, rfl, by rw [hpc, hcfg, h1]; rfl⟩
  | add _ rs1 rs2 | sub _ rs1 rs2 =>
    have h1 : s.getReg rs1 = s'.getReg rs1 := hsrc rs1 (.head _)
    have h2 : s.getReg rs2 = s'.getReg rs2 := hsrc rs2 (.tail _ (.head _))
    exact ⟨_, _, rfl, by rw [hpc, h1, h2]; rfl⟩

/-- Settles O28: both states commit one value and one pc, and the destination reads that value, narrowed alike. -/
theorem resultDependsOnSourceRegistersOnly : Obligations.ResultDependsOnSourceRegistersOnly := by
  rintro i s s' ⟨hpc, _, hcfg⟩ hsrc
  obtain ⟨v, n, he, he'⟩ := exec_commits_alike i hpc hcfg hsrc
  obtain ⟨t, hc⟩ := commit_completes i.dest v n s
  obtain ⟨t', hc'⟩ := commit_completes i.dest v n s'
  obtain ⟨⟨hregs, _⟩, hn, _⟩ := commit_spec hc
  obtain ⟨⟨hregs', _⟩, hn', _⟩ := commit_spec hc'
  refine ⟨t, t', he.trans hc, he'.trans hc', ?_, hn.trans hn'.symm⟩
  simp [hregs, hregs', hcfg]

/-- A write of register 0 changes nothing (10_state.md R22). -/
@[simp] theorem State.setReg_zero (s : State) (v : Word) : s.setReg 0 v = s := rfl

/-- `commit` to register 0 moves pc and does nothing else. -/
theorem commit_zero (v n : Word) (s : State) : commit 0 v n s = .next (s.setPc n) := rfl

/-- Settles O29: an instruction with rd = 0 commits to register 0. -/
theorem registerZeroIsHardWired : Obligations.RegisterZeroIsHardWired := by
  refine ⟨State.getReg_of_zero, State.setReg_zero, fun i s hi => ?_⟩
  obtain ⟨v, n, he, hn⟩ := exec_eq_commit i s
  rw [hi, commit_zero] at he
  refine ⟨s.setPc n, he, fun r => rfl, rfl, fun a => rfl, ?_⟩
  obtain ⟨hn, hseq⟩ | ⟨rd, o, rfl, hn⟩ := hn
  · exact ⟨fun rd o e => absurd e (hseq rd o), fun _ => hn⟩
  · exact ⟨fun _ _ e => by cases e; exact hn, fun h => absurd rfl (h rd o)⟩

end Sys2Proof.Machine
end

section
/-! PROOF. The host's accessors (10_state.md R24, R37), and the ends of a step (60_exceptions.md R171). -/

namespace Sys2Proof.Machine

namespace State

/-- Everything `get_register` answers below 32. -/
theorem hostGetRegister_of_lt (s : State) {n : Nat} (h : n < 32) : s.hostGetRegister n = .ok (s.getReg ⟨n, h⟩) :=
  dif_pos h

theorem hostGetRegister_of_gt (s : State) {n : Nat} (h : 31 < n) : s.hostGetRegister n = .error .invalidRegisterIndex :=
  dif_neg (by omega)

/-- Everything `set_register` does below 32. -/
theorem hostSetRegister_of_lt (s : State) {n : Nat} (h : n < 32) (v : Word) :
    s.hostSetRegister n v = .next (s.setReg ⟨n, h⟩ v) :=
  dif_pos h

theorem hostSetRegister_of_gt (s : State) {n : Nat} (h : 31 < n) (v : Word) :
    s.hostSetRegister n v = .fault .invalidRegisterIndex :=
  dif_neg (by omega)

/-- A register write writes its register only. -/
theorem setReg_writesOnly (s : State) (r : Reg) (v : Word) : WritesOnly r v s (s.setReg r v) :=
  ⟨fun q => getReg_setReg s r q v, readByte_setReg s r v, setReg_cfg s r v⟩

end State

/-- Settles O32: the accessors' laws on either side of 32, and the read-after-write law. -/
theorem hostAccessorsAreBoundsChecked : Obligations.HostAccessorsAreBoundsChecked := by
  intro s v n
  refine ⟨rfl, fun h => ⟨s.hostGetRegister_of_gt h, s.hostSetRegister_of_gt h v⟩, fun h => ?_⟩
  refine ⟨s.hostGetRegister_of_lt h, _, s.hostSetRegister_of_lt h v, s.setReg_writesOnly _ v, s.setReg_pc _ v, ?_⟩
  have hzero : (⟨n, h⟩ : Reg) = 0 ↔ n = 0 := by simp [Fin.ext_iff]
  rw [State.hostGetRegister_of_lt _ h, State.getReg_setReg]
  simp [hzero]

/-- Everything a step can end in: a next state, or one of three named ends. -/
theorem step_completes_or_ends (s : State) :
    (∃ t, step s = .next t) ∨
      ∃ f, step s = .fault f ∧ (f = .haltSentinel ∨ f = .outOfBounds ∨ f = .unknownInstruction) := by
  rcases step_cases s with ⟨_, e⟩ | ⟨_, e⟩ | ⟨_, _, _, _, _, e⟩ | ⟨_, i, _, _, _, e⟩
  · exact .inr ⟨_, e, .inr (.inl rfl)⟩
  · exact .inr ⟨_, e, .inl rfl⟩
  · exact .inr ⟨_, e, .inr (.inr rfl)⟩
  · obtain ⟨t, _, he, _⟩ := exec_spec i s
    exact .inl ⟨t, e.trans he⟩

/-- Settles O47: a step that does not complete has one of the three named ends. -/
theorem stepRaisesOnlyItsThreeEnds : Obligations.StepRaisesOnlyItsThreeEnds := by
  intro s
  obtain ⟨t, e⟩ | ⟨f, e, hf⟩ := step_completes_or_ends s
  · rw [e]; exact ⟨nofun, nofun⟩
  · rw [e]; exact ⟨nofun, fun g hg => by cases hg; exact hf⟩

end Sys2Proof.Machine
end

section
/-! PROOF. The program counter (10_state.md R27 to R29): what moves it, that its advance does not wrap, and what a jump
below 0 leads to. -/

namespace Sys2Proof.Machine

/-- A pass over a run that is not running changes nothing (40_fetch_and_step.md R100). -/
theorem Run.tick_of_not_running {r : Run} (h : r.status ≠ .running) : r.tick = r := by
  obtain ⟨s, status⟩ := r
  cases status with
  | running => exact absurd rfl h
  | _ => rfl

/-- A pass that ends a run, or finds it ended, leaves the CORE's state. -/
theorem Run.tick_cpu_of_ended {r : Run} (h : r.tick.status ≠ .running) : r.tick.cpu = r.cpu := by
  obtain ⟨s, status⟩ := r
  by_cases hr : status = .running
  · subst hr
    rcases tick_running_cases s with ⟨t, _, e⟩ | ⟨f, _, e⟩ | ⟨c, _, e⟩
    · rw [e] at h; exact absurd rfl h
    · rw [e]
    · rw [e]
  · rw [Run.tick_of_not_running hr]

/-- `set_register` leaves pc. -/
theorem State.hostSetRegister_pc {s t : State} {n : Nat} {v : Word} (h : s.hostSetRegister n v = .next t) :
    t.pc = s.pc := by
  unfold State.hostSetRegister at h
  split at h
  · cases h; exact s.setReg_pc _ v
  · cases h

/-- `load` leaves pc. -/
theorem State.load_pc {s t : State} {image : List Byte} (h : s.load image = .next t) : t.pc = s.pc := by
  unfold State.load at h
  split at h
  · cases h; exact s.storeBytes_pc 0 image
  · cases h

/-- The reserved write leaves pc. -/
theorem State.memWrite_pc {s t : State} {a n v : Nat} (h : s.memWrite a n v = .next t) : t.pc = s.pc := by
  unfold State.memWrite at h
  split at h
  · cases h; exact s.storeBytes_pc a _
  · cases h

/-- Settles O50: the two cases of pc of a step, and the operations that leave it. -/
theorem pcChangesOnlyByAdvanceAndJump : Obligations.PcChangesOnlyByAdvanceAndJump := by
  refine ⟨fun s t h => ?_, fun r h => congrArg State.pc (Run.tick_cpu_of_ended h),
    fun _ _ _ _ => State.hostSetRegister_pc, fun _ _ _ => State.load_pc, fun _ _ _ _ _ => State.memWrite_pc⟩
  obtain ⟨w, i, _, hf, hd, _, _, _, ⟨hpc, hseq⟩ | ⟨rd, o, rfl, hpc⟩⟩ := step_next_spec h
  · exact .inr ⟨w, i, hf, hd, hseq, hpc⟩
  · exact .inl ⟨w, rd, o, hf, hd, hpc⟩

/-- Settles O51: a fetch succeeds only below MEM_CAPACITY, which is at most 2^63, so pc + 4 stays below 2^64. -/
theorem sequentialAdvanceNeverWraps : Obligations.SequentialAdvanceNeverWraps := by
  intro s t w i hl hf hd hseq h
  have hbound := fetch_ok_bound hf
  obtain ⟨_, hcap⟩ := (legal_iff s.cfg).mp hl
  obtain ⟨w', i', _, hf', hd', _, _, _, ⟨hpc, _⟩ | ⟨rd, o, rfl, _⟩⟩ := step_next_spec h
  · rw [hpc, BitVec.toNat_add]
    exact Nat.mod_eq_of_lt (by simp only [BitVec.toNat_ofNat]; omega)
  · cases hf.symm.trans hf'
    cases hd.symm.trans hd'
    exact absurd rfl (hseq rd o)

/-- The target of a jump below 0, modulo 2^64: at most 2^20 below 2^64 (10_state.md R28, D8). -/
theorem jump_target_of_neg {p : Word} {o : BitVec 21} (h : p.toNat + o.toInt < 0) :
    2 ^ 64 - 2 ^ 20 ≤ (p + immJ o).toNat := by
  have hlow : -2 ^ 20 ≤ o.toInt := BitVec.le_toInt o
  have hsum : (p + immJ o).toNat = (p.toNat + (o.toInt % 2 ^ 64).toNat) % 2 ^ 64 := by
    simp [immJ, BitVec.signExtend]
  omega

/-- Settles O52: the jump completes with a pc no legal Memory reaches, so the next fetch is OutOfBounds. -/
theorem jumpBelowZeroFailsAtTheNextFetch : Obligations.JumpBelowZeroFailsAtTheNextFetch := by
  intro s rd o hl hneg
  obtain ⟨t, hc⟩ := commit_completes rd (s.pc + 4#64) (s.pc + immJ o) s
  obtain ⟨hw, hpc, _⟩ := commit_spec hc
  have htarget : 2 ^ 64 - 2 ^ 20 ≤ t.pc.toNat := hpc ▸ jump_target_of_neg hneg
  refine ⟨t, hc, hw, htarget, step_outOfBounds ?_⟩
  obtain ⟨_, hcap⟩ := (legal_iff s.cfg).mp hl
  obtain ⟨_, _, hcfg⟩ := hw
  rw [hcfg]
  omega

end Sys2Proof.Machine
end

section
/-! PROOF. Reads of Memory (20_memory.md R40, R42, R44): what the canonical form is determined by, and what a window and a
read of `n` bytes answer. -/

namespace Sys2Proof.Machine

namespace Memory

@[simp] theorem lookup_cons_self (fill : Byte) (c : Host.Cell) (m : Memory) : lookup fill (c :: m) c.1 = c.2 :=
  if_pos rfl

theorem lookup_cons_of_ne {fill : Byte} {c : Host.Cell} {a : Nat} (h : c.1 ≠ a) (m : Memory) :
    lookup fill (c :: m) a = lookup fill m a :=
  if_neg h

/-- A memory that reads as a canonical one does has a cell at or below that one's first address. -/
theorem not_below_head_of_lookup_eq {cfg : Config} {c : Host.Cell} {m m' : Memory} (h : wf cfg (c :: m) = true)
    (he : ∀ a < cfg.memCapacity, lookup cfg.memFill m' a = lookup cfg.memFill (c :: m) a) :
    ¬∀ d ∈ m', c.1 < d.1 := by
  intro hbelow
  obtain ⟨hcap, hne, _⟩ := wf_cons.mp h
  have hfill := he c.1 hcap
  rw [lookup_cons_self, lookup_of_below hbelow] at hfill
  exact hne hfill.symm

/-- The canonical form is determined by the bytes below MEM_CAPACITY: the first cells agree, and then the rest. -/
theorem eq_of_lookup_eq {cfg : Config} {m m' : Memory} (h : wf cfg m = true) (h' : wf cfg m' = true)
    (he : ∀ a < cfg.memCapacity, lookup cfg.memFill m a = lookup cfg.memFill m' a) : m = m' := by
  induction m generalizing m' with
  | nil =>
    cases m' with
    | nil => rfl
    | cons d m' => exact absurd (by simp) (not_below_head_of_lookup_eq h' he)
  | cons c m ih =>
    have hle := not_below_head_of_lookup_eq h fun a ha => (he a ha).symm
    cases m' with
    | nil => exact absurd (by simp) hle
    | cons d m' =>
      have hge := not_below_head_of_lookup_eq h' he
      obtain ⟨hc, _, hlt, hm⟩ := wf_cons.mp h
      obtain ⟨_, _, hlt', hm'⟩ := wf_cons.mp h'
      have haddr : c.1 = d.1 := by
        refine Nat.le_antisymm (not_lt.mp fun hdc => hge ?_) (not_lt.mp fun hcd => hle ?_)
        · exact List.forall_mem_cons.mpr ⟨hdc, fun e hmem => hdc.trans (hlt e hmem)⟩
        · exact List.forall_mem_cons.mpr ⟨hcd, fun e hmem => hcd.trans (hlt' e hmem)⟩
      have hbyte : c.2 = d.2 := by
        have hread := he c.1 hc
        rwa [lookup_cons_self, haddr, lookup_cons_self] at hread
      have htail : m = m' := ih hm hm' fun a ha => by
        by_cases hac : c.1 = a
        · rw [← hac, lookup_of_below hlt, lookup_of_below (haddr ▸ hlt')]
        · rw [← lookup_cons_of_ne hac m, he a ha, lookup_cons_of_ne (haddr ▸ hac)]
      rw [Prod.ext haddr hbyte, htail]

/-- The first bytes of the bytes from an address up. -/
theorem take_bytesAt (fill : Byte) (m : Memory) (a : Nat) {j n : Nat} (h : j ≤ n) :
    (bytesAt fill m a n).take j = bytesAt fill m a j :=
  List.ext_getElem (by simp [h]) fun k _ _ => by simp [getElem_bytesAt]

end Memory

namespace State

/-- Byte `k` of the bytes from `a` up is what the read at `a + k` answers, where they all exist. -/
theorem readByte_eq_getElem_bytesAt {s : State} {a n : Nat} (h : a + n ≤ s.cfg.memCapacity) {k : Nat}
    (hk : k < (s.mem.bytesAt s.cfg.memFill a n).length) :
    s.readByte (a + k) = .ok (s.mem.bytesAt s.cfg.memFill a n)[k] := by
  rw [Memory.length_bytesAt] at hk
  rw [readByte_ok (by omega), Memory.getElem_bytesAt]

theorem memRead_ok {s : State} {a n : Nat} (h : a + n ≤ s.cfg.memCapacity) :
    s.memRead a n = .ok (s.mem.bytesAt s.cfg.memFill a n) :=
  if_pos h

theorem memRead_error {s : State} {a n : Nat} (h : s.cfg.memCapacity < a + n) :
    s.memRead a n = .error .outOfBounds :=
  if_neg (by omega)

theorem readWindow_ok {s : State} {a : Nat} (h : a < s.cfg.memCapacity) :
    s.readWindow a = .ok (s.mem.bytesAt s.cfg.memFill a (s.cfg.memCapacity - a)) :=
  if_pos h

theorem readWindow_error {s : State} {a : Nat} (h : s.cfg.memCapacity ≤ a) :
    s.readWindow a = .error .outOfBounds :=
  if_neg (by omega)

end State

/-- Settles O33: reads below MEM_CAPACITY are lookups, and the canonical form is determined by those. -/
theorem canonicalMemoriesThatReadAlikeAreEqual : Obligations.CanonicalMemoriesThatReadAlikeAreEqual := by
  intro s t hcfg hs ht hread
  refine Memory.eq_of_lookup_eq hs (hcfg ▸ ht) fun a ha => ?_
  have h := hread a
  rw [readByte_ok ha, readByte_ok (hcfg ▸ ha), ← hcfg] at h
  exact Except.ok.inj h

/-- Settles O34: the window is the bytes from `addr` up, and a read of four is its first four. -/
theorem readWindowIsTheRestOfMemory : Obligations.ReadWindowIsTheRestOfMemory := by
  intro s a
  refine ⟨State.readWindow_error, fun h => ⟨_, State.readWindow_ok h, Memory.length_bytesAt .., ?_, fun h4 => ?_⟩⟩
  · exact fun k hk => State.readByte_eq_getElem_bytesAt (by omega) hk
  · rw [State.memRead_ok h4, Memory.take_bytesAt _ _ _ (by omega)]

/-- Settles O35: the two sides of the bound; it holds for `n = 0` too. -/
theorem memReadAnswersTheBytesOrOutOfBounds : Obligations.MemReadAnswersTheBytesOrOutOfBounds := by
  intro s a n _
  exact ⟨State.memRead_error, fun h =>
    ⟨_, State.memRead_ok h, Memory.length_bytesAt .., fun _ hk => State.readByte_eq_getElem_bytesAt h hk⟩⟩

end Sys2Proof.Machine
end

section
/-! PROOF. Writes of Memory (20_memory.md R41, R43): what placing bytes does, and the two operations that place them. -/

namespace Sys2Proof

/-- Byte `k` of a number laid out little-endian. -/
theorem getElem_leBytes (n v k : Nat) (h : k < (leBytes n v).length) :
    (leBytes n v)[k] = BitVec.ofNat 8 (v / 256 ^ k) := by
  induction n generalizing v k with
  | zero => simp at h
  | succ n ih =>
    cases k with
    | zero => simp [leBytes]
    | succ k =>
      simp only [leBytes, List.getElem_cons_succ, ih]
      rw [Nat.div_div_eq_div_mul, Nat.pow_succ']

end Sys2Proof

namespace Sys2Proof.Machine

namespace State

/-- Everything placing bytes where they fit does: it keeps the canonical form, stores the bytes and nothing else. -/
theorem storeBytes_spec {s : State} (hw : Memory.wf s.cfg s.mem = true) {a : Nat} {bs : List Byte}
    (hf : a + bs.length ≤ s.cfg.memCapacity) :
    Memory.wf (s.storeBytes a bs).cfg (s.storeBytes a bs).mem = true ∧
      (∀ (k : Nat) (h : k < bs.length), (s.storeBytes a bs).readByte (a + k) = .ok bs[k]) ∧
      (∀ k, k < a ∨ a + bs.length ≤ k → (s.storeBytes a bs).readByte k = s.readByte k) ∧
      SameRegs s (s.storeBytes a bs) ∧ (s.storeBytes a bs).pc = s.pc ∧ (s.storeBytes a bs).cfg = s.cfg := by
  refine ⟨storeBytes_wf hw a bs, fun k hk => ?_, fun k hk => ?_, storeBytes_getReg s a bs, storeBytes_pc s a bs,
    storeBytes_cfg s a bs⟩
  · rw [readByte_storeBytes hw hf, dif_pos ⟨by omega, by omega⟩]
    simp
  · rw [readByte_storeBytes hw hf, dif_neg (by omega)]

theorem memWrite_ok {s : State} {a n : Nat} (h : a + n ≤ s.cfg.memCapacity) (v : Nat) :
    s.memWrite a n v = .next (s.storeBytes a (leBytes n v)) :=
  if_pos h

theorem memWrite_fault {s : State} {a n : Nat} (h : s.cfg.memCapacity < a + n) (v : Nat) :
    s.memWrite a n v = .fault .outOfBounds :=
  if_neg (by omega)

theorem load_ok {s : State} {image : List Byte} (h : image.length ≤ s.cfg.memCapacity) :
    s.load image = .next (s.storeBytes 0 image) :=
  if_pos h

theorem load_refused {s : State} {image : List Byte} (h : s.cfg.memCapacity < image.length) :
    s.load image = .refused .imageTooLong :=
  if_neg (by omega)

/-- A load that succeeds copied an image that fits. -/
theorem load_next {s t : State} {image : List Byte} (h : s.load image = .next t) :
    image.length ≤ s.cfg.memCapacity ∧ t = s.storeBytes 0 image := by
  rcases Nat.lt_or_ge s.cfg.memCapacity image.length with hf | hf
  · cases (load_refused hf).symm.trans h
  · cases (load_ok hf).symm.trans h
    exact ⟨hf, rfl⟩

end State

/-- Settles O36: the write places the little-endian bytes of the value. -/
theorem reservedWriteIsLittleEndianAndBoundsChecked : Obligations.ReservedWriteIsLittleEndianAndBoundsChecked := by
  intro s a n v hw
  refine ⟨fun h => State.memWrite_fault h v, fun h => ⟨_, State.memWrite_ok h v, ?_⟩⟩
  obtain ⟨hwf, hin, hout, hrest⟩ := State.storeBytes_spec hw (bs := leBytes n v) (by simpa using h)
  rw [length_leBytes] at hout
  refine ⟨hwf, fun k hk => ?_, hout, hrest⟩
  rw [hin k (by simpa using hk), getElem_leBytes]

/-- Settles O37: the load places the image at offset 0. -/
theorem loadCopiesTheImage : Obligations.LoadCopiesTheImage := by
  intro s image hw
  refine ⟨State.load_refused, fun h => ⟨_, State.load_ok h, ?_⟩⟩
  obtain ⟨hwf, hin, hout, hrest⟩ := State.storeBytes_spec hw (a := 0) (bs := image) (by omega)
  simp only [Nat.zero_add] at hin hout
  exact ⟨hwf, hin, fun k hk => hout k (.inr hk), hrest⟩

end Sys2Proof.Machine
end

section
/-! PROOF. The fetch (20_memory.md R45, R54; 40_fetch_and_step.md R90): four bytes little-endian, as Memory holds them at
that moment. -/

namespace Sys2Proof

/-- The first byte is the low 8 bits of a word, and the bytes after it stand 8 bits higher. -/
theorem wordOfBytes_cons (b : Byte) (bs : List Byte) :
    wordOfBytes (b :: bs) = b.setWidth 32 ||| wordOfBytes bs <<< 8 := by
  have hdisjoint : b.setWidth 32 &&& wordOfBytes bs <<< 8 = 0#32 := by
    ext i hi
    by_cases h8 : i < 8
    · simp [h8]
    · simp [BitVec.getLsbD_of_ge b i (by omega)]
  rw [← BitVec.add_eq_or_of_and_eq_zero _ _ hdisjoint]
  apply BitVec.eq_of_toNat_eq
  have hb : b.toNat < 256 := b.isLt
  simp only [wordOfBytes, leNat, BitVec.toNat_add, BitVec.toNat_ofNat, BitVec.toNat_setWidth, BitVec.toNat_shiftLeft,
    Nat.shiftLeft_eq]
  omega

/-- Four bytes as a word, written out (20_memory.md R45). -/
theorem wordOfBytes_four (b0 b1 b2 b3 : Byte) :
    wordOfBytes [b0, b1, b2, b3] =
      b0.setWidth 32 ||| b1.setWidth 32 <<< 8 ||| b2.setWidth 32 <<< 16 ||| b3.setWidth 32 <<< 24 := by
  have hnil : wordOfBytes [] = 0#32 := rfl
  simp only [wordOfBytes_cons, hnil, BitVec.zero_shiftLeft, BitVec.or_zero, BitVec.shiftLeft_or_distrib,
    ← BitVec.shiftLeft_add, Nat.reduceAdd, BitVec.or_assoc]

end Sys2Proof

namespace Sys2Proof.Machine

/-- Bytes placed where they fit are what a read of them answers. -/
theorem State.memRead_storeBytes {s : State} (hw : Memory.wf s.cfg s.mem = true) {a : Nat} {bs : List Byte}
    (hf : a + bs.length ≤ s.cfg.memCapacity) : (s.storeBytes a bs).memRead a bs.length = .ok bs := by
  obtain ⟨_, hin, _, _, _, hcfg⟩ := State.storeBytes_spec hw hf
  have hf' : a + bs.length ≤ (s.storeBytes a bs).cfg.memCapacity := hcfg ▸ hf
  rw [State.memRead_ok hf']
  refine congrArg _ (List.ext_getElem (Memory.length_bytesAt ..) fun k hk hk' => Except.ok.inj (ε := Fault) ?_)
  rw [← State.readByte_eq_getElem_bytesAt hf' hk, hin k hk']

/-- A fetch is the word of the four bytes at pc. -/
theorem fetch_of_memRead {s : State} {bytes : List Byte} (h : s.memRead s.pc.toNat 4 = .ok bytes) :
    fetch s = .ok (wordOfBytes bytes) := by
  unfold fetch; rw [h]

/-- A step runs the word it fetched (40_fetch_and_step.md R94). -/
theorem step_of_fetch {s : State} {w : InstrWord} (h : fetch s = .ok w) : step s = runWord w s := by
  unfold step runStep; rw [h]

/-- The word placed at pc is the word fetched (20_memory.md R54). -/
theorem fetch_withFetchWord {s : State} (hw : Memory.wf s.cfg s.mem = true)
    (hf : s.pc.toNat + 4 ≤ s.cfg.memCapacity) (w : InstrWord) : fetch (s.withFetchWord 32 w.toNat) = .ok w := by
  have hplace : s.withFetchWord 32 w.toNat = s.storeBytes s.pc.toNat (leBytes 4 w.toNat) := by
    rw [State.withFetchWord, tableWordBytes, Nat.mod_eq_of_lt w.isLt]
  have hread := State.memRead_storeBytes hw (bs := leBytes 4 w.toNat) (by simpa using hf)
  rw [length_leBytes] at hread
  rw [hplace, fetch_of_memRead (by rw [State.storeBytes_pc]; exact hread), wordOfBytes_leBytes, BitVec.ofNat_toNat,
    BitVec.setWidth_eq]

/-- Settles O38: the four bytes at pc as a word, written out. -/
theorem fetchIsLittleEndian : Obligations.FetchIsLittleEndian := by
  intro s h
  refine ⟨_, _, _, _, readByte_ok (by omega), readByte_ok (by omega), readByte_ok (by omega), readByte_ok (by omega), ?_⟩
  rw [fetch_of_memRead (State.memRead_ok h), ← wordOfBytes_four]
  rfl

/-- Settles O40: the placed word is fetched, and a step runs what it fetched. -/
theorem fetchSeesTheWordPlacedAtPc : Obligations.FetchSeesTheWordPlacedAtPc := by
  intro s w hw hf
  have hfetch := fetch_withFetchWord hw hf w
  exact ⟨hfetch, step_of_fetch hfetch⟩

end Sys2Proof.Machine
end

section
/-! PROOF. Memory through a run (20_memory.md R49, R51): no pass of the run loop changes a byte. -/

namespace Sys2Proof.Machine

/-- A pass leaves every byte of Memory. -/
theorem Run.tick_readByte (r : Run) (a : Nat) : r.tick.cpu.readByte a = r.cpu.readByte a := by
  obtain ⟨s, status⟩ := r
  by_cases hr : status = .running
  · subst hr
    rcases tick_running_cases s with ⟨t, ht, e⟩ | ⟨f, _, e⟩ | ⟨c, _, e⟩
    · obtain ⟨_, _, _, _, _, ⟨_, hbytes, _⟩, _⟩ := step_next_spec ht
      rw [e]; exact hbytes a
    · rw [e]
    · rw [e]
  · rw [Run.tick_of_not_running hr]

/-- Any number of passes leaves every byte of Memory. -/
theorem Run.ticks_readByte (n : Nat) (r : Run) (a : Nat) : (r.ticks n).cpu.readByte a = r.cpu.readByte a := by
  induction n generalizing r with
  | zero => rfl
  | succ n ih => exact (ih r.tick).trans (Run.tick_readByte r a)

/-- Memory after reset reads MEM_FILL_BYTE up to MEM_CAPACITY (70_reset_and_hazards.md R191). -/
theorem State.readByte_resetWith (c : Config) {k : Nat} (h : k < c.memCapacity) :
    (State.resetWith c).readByte k = .ok c.memFill :=
  readByte_ok h

/-- Settles O58: the passes leave what boot loaded over the fill bytes. -/
theorem memoryOfARunIsTheLoadedImage : Obligations.MemoryOfARunIsTheLoadedImage := by
  intro c image s n k hboot
  obtain ⟨hf, rfl⟩ := State.load_next hboot
  obtain ⟨_, hin, hout, _, _, hcfg⟩ := State.storeBytes_spec (State.resetWith_wf c) (a := 0) (bs := image) (by omega)
  simp only [Nat.zero_add] at hin hout
  rw [Run.ticks_readByte]
  refine ⟨hin k, fun hk hcap => ?_, fun hcap => readByte_error (hcfg ▸ hcap)⟩
  exact (hout k (.inr hk)).trans (State.readByte_resetWith c hcap)

end Sys2Proof.Machine
end

section
/-! PROOF. The decoder's tables as equations (30_encoding.md R69 to R71): what each opcode answers, and what each row of
opcodes 0010011 and 0110011 does. -/

namespace Sys2Proof

section
variable {w : InstrWord}

theorem decodeWord_lui (h : opcodeField w = 0x37#7) : decodeWord w = .ok (.lui (rdField w) (imm20Field w)) := if_pos h

theorem decodeWord_auipc (h : opcodeField w = 0x17#7) : decodeWord w = .ok (.auipc (rdField w) (imm20Field w)) := by
  simp [decodeWord, h]

theorem decodeWord_immediate (h : opcodeField w = 0x13#7) : decodeWord w = decodeImmediate w := by
  simp [decodeWord, h]

theorem decodeWord_jal (h : opcodeField w = 0x6F#7) : decodeWord w = .ok (.jal (rdField w) (offsetField w)) := by
  simp [decodeWord, h]

theorem decodeWord_register (h : opcodeField w = 0x33#7) : decodeWord w = decodeRegister w := by
  simp [decodeWord, h]

theorem decodeWord_unknownOpcode (h : opcodeField w ≠ 0x37#7 ∧ opcodeField w ≠ 0x17#7 ∧ opcodeField w ≠ 0x13#7 ∧
    opcodeField w ≠ 0x6F#7 ∧ opcodeField w ≠ 0x33#7) : decodeWord w = .error (.unknownOpcode (opcodeField w)) := by
  simp [decodeWord, h]

/-! A word that matches a row under the row's mask has the row's opcode, funct3 and funct7, which choose the branch. -/

theorem decodeWord_addi (h : w &&& 0x0000707F#32 = 0x00000013#32) :
    decodeWord w = .ok (.addi (rdField w) (rs1Field w) (imm12Field w)) := by
  obtain ⟨ho, h3⟩ := match_funct3 h
  simp [decodeWord_immediate ho, decodeImmediate, show funct3Field w = 0b000#3 from h3]

theorem decodeWord_slli (h : w &&& 0x0000707F#32 = 0x00001013#32) :
    decodeWord w = .ok (.slli (rdField w) (rs1Field w) (imm12Field w)) := by
  obtain ⟨ho, h3⟩ := match_funct3 h
  simp [decodeWord_immediate ho, decodeImmediate, show funct3Field w = 0b001#3 from h3]

theorem decodeWord_slti (h : w &&& 0x0000707F#32 = 0x00002013#32) :
    decodeWord w = .ok (.slti (rdField w) (rs1Field w) (imm12Field w)) := by
  obtain ⟨ho, h3⟩ := match_funct3 h
  simp [decodeWord_immediate ho, decodeImmediate, show funct3Field w = 0b010#3 from h3]

theorem decodeWord_sltiu (h : w &&& 0x0000707F#32 = 0x00003013#32) :
    decodeWord w = .ok (.sltiu (rdField w) (rs1Field w) (imm12Field w)) := by
  obtain ⟨ho, h3⟩ := match_funct3 h
  simp [decodeWord_immediate ho, decodeImmediate, show funct3Field w = 0b011#3 from h3]

theorem decodeWord_xori (h : w &&& 0x0000707F#32 = 0x00004013#32) :
    decodeWord w = .ok (.xori (rdField w) (rs1Field w) (imm12Field w)) := by
  obtain ⟨ho, h3⟩ := match_funct3 h
  simp [decodeWord_immediate ho, decodeImmediate, show funct3Field w = 0b100#3 from h3]

theorem decodeWord_ori (h : w &&& 0x0000707F#32 = 0x00006013#32) :
    decodeWord w = .ok (.ori (rdField w) (rs1Field w) (imm12Field w)) := by
  obtain ⟨ho, h3⟩ := match_funct3 h
  simp [decodeWord_immediate ho, decodeImmediate, show funct3Field w = 0b110#3 from h3]

theorem decodeWord_andi (h : w &&& 0x0000707F#32 = 0x00007013#32) :
    decodeWord w = .ok (.andi (rdField w) (rs1Field w) (imm12Field w)) := by
  obtain ⟨ho, h3⟩ := match_funct3 h
  simp [decodeWord_immediate ho, decodeImmediate, show funct3Field w = 0b111#3 from h3]

theorem decodeWord_srli (h : w &&& 0xFE00707F#32 = 0x00005013#32) :
    decodeWord w = .ok (.srli (rdField w) (rs1Field w) (imm12Field w)) := by
  obtain ⟨ho, h3, h7⟩ := match_funct7 h
  simp [decodeWord_immediate ho, decodeImmediate, decodeShiftRight, show funct3Field w = 0b101#3 from h3,
    show funct7Field w = 0b0000000#7 from h7]

theorem decodeWord_srai (h : w &&& 0xFE00707F#32 = 0x40005013#32) :
    decodeWord w = .ok (.srai (rdField w) (rs1Field w) (imm12Field w)) := by
  obtain ⟨ho, h3, h7⟩ := match_funct7 h
  simp [decodeWord_immediate ho, decodeImmediate, decodeShiftRight, show funct3Field w = 0b101#3 from h3,
    show funct7Field w = 0b0100000#7 from h7]

theorem decodeWord_add (h : w &&& 0xFE00707F#32 = 0x00000033#32) :
    decodeWord w = .ok (.add (rdField w) (rs1Field w) (rs2Field w)) := by
  obtain ⟨ho, h3, h7⟩ := match_funct7 h
  simp [decodeWord_register ho, decodeRegister, show funct3Field w = 0b000#3 from h3,
    show funct7Field w = 0b0000000#7 from h7]

theorem decodeWord_sub (h : w &&& 0xFE00707F#32 = 0x40000033#32) :
    decodeWord w = .ok (.sub (rdField w) (rs1Field w) (rs2Field w)) := by
  obtain ⟨ho, h3, h7⟩ := match_funct7 h
  simp [decodeWord_register ho, decodeRegister, show funct3Field w = 0b000#3 from h3,
    show funct7Field w = 0b0100000#7 from h7]

end

end Sys2Proof
end

section
/-! PROOF. The match and mask columns (30_encoding.md R69 to R71): no word is in two rows, and the rows are the decoder's. -/

namespace Sys2Proof

/-- A word in two rows makes the rows' patterns agree on the bits that both masks keep. -/
theorem patterns_agree {w m₁ p₁ m₂ p₂ : InstrWord} (h₁ : w &&& m₁ = p₁) (h₂ : w &&& m₂ = p₂) : p₁ &&& m₂ = p₂ &&& m₁ := by
  rw [← h₁, ← h₂, BitVec.and_assoc, BitVec.and_assoc, BitVec.and_comm m₁]

/-- Settles O4: the patterns of two different rows differ in a bit that both masks keep. -/
theorem opcodeRowsDoNotOverlap : Obligations.OpcodeRowsDoNotOverlap := by
  have hrows : ∀ r₁ ∈ opcodeTable, ∀ r₂ ∈ opcodeTable, r₁.pattern &&& r₂.mask = r₂.pattern &&& r₁.mask → r₁ = r₂ := by
    decide
  exact fun w r₁ m₁ r₂ m₂ h₁ h₂ => hrows r₁ m₁ r₂ m₂ (patterns_agree h₁ h₂)

/-- The row of spec/opcode_table.json with a given mnemonic. -/
def Mnemonic.row (m : Mnemonic) : OpcodeRow := (opcodeTable.find? (·.mnemonic = m)).get (by cases m <;> rfl)

theorem Mnemonic.row_mem (m : Mnemonic) : m.row ∈ opcodeTable := List.get_find?_mem _

@[simp] theorem Mnemonic.row_mnemonic (m : Mnemonic) : m.row.mnemonic = m := by cases m <;> rfl

/-- The mnemonics of the table's rows are distinct. -/
theorem eq_row_of_mem : ∀ r ∈ opcodeTable, r = r.mnemonic.row := by decide

/-- The word of a well-formed instruction matches the row of its mnemonic. -/
theorem encode_and_mask {i : Instr} (h : i.wf = true) : encode i &&& i.mnemonic.row.mask = i.mnemonic.row.pattern := by
  cases i with
  | lui rd imm20 => exact (and_opcodeMask _).trans (by rw [encode, encodeU_opcode]; rfl)
  | auipc rd imm20 => exact (and_opcodeMask _).trans (by rw [encode, encodeU_opcode]; rfl)
  | jal rd offset => exact (and_opcodeMask _).trans (by rw [encode, encodeJ_opcode]; rfl)
  | srli rd rs1 uimm =>
    exact (and_funct7Mask _).trans (by rw [encode, encodeI_opcode, encodeI_funct3, encodeI_funct7, eq_of_beq h]; rfl)
  | srai rd rs1 uimm =>
    exact (and_funct7Mask _).trans (by rw [encode, encodeI_opcode, encodeI_funct3, encodeI_funct7, eq_of_beq h]; rfl)
  | add rd rs1 rs2 => exact (and_funct7Mask _).trans (by rw [encode, encodeR_opcode, encodeR_funct3, encodeR_funct7]; rfl)
  | sub rd rs1 rs2 => exact (and_funct7Mask _).trans (by rw [encode, encodeR_opcode, encodeR_funct3, encodeR_funct7]; rfl)
  | _ => exact (and_funct3Mask _).trans (by rw [encode, encodeI_opcode, encodeI_funct3]; rfl)

end Sys2Proof
end

section
/-! PROOF. The round trips between words and instructions (30_encoding.md R60 to R72). -/

namespace Sys2Proof

/-- Decoding the word of a well-formed instruction gives the instruction: the word matches the instruction's row, and its
layout gives every operand back. -/
theorem decodeWord_encode {i : Instr} (h : i.wf = true) : decodeWord (encode i) = .ok i := by
  have hmatch := encode_and_mask h
  cases i with
  | lui rd imm20 => rw [decodeWord_lui (match_opcode hmatch), encode, encodeU_rd, encodeU_imm]
  | auipc rd imm20 => rw [decodeWord_auipc (match_opcode hmatch), encode, encodeU_rd, encodeU_imm]
  | addi rd rs1 imm => rw [decodeWord_addi hmatch, encode, encodeI_rd, encodeI_rs1, encodeI_imm]
  | slti rd rs1 imm => rw [decodeWord_slti hmatch, encode, encodeI_rd, encodeI_rs1, encodeI_imm]
  | sltiu rd rs1 uimm => rw [decodeWord_sltiu hmatch, encode, encodeI_rd, encodeI_rs1, encodeI_imm]
  | xori rd rs1 imm => rw [decodeWord_xori hmatch, encode, encodeI_rd, encodeI_rs1, encodeI_imm]
  | ori rd rs1 imm => rw [decodeWord_ori hmatch, encode, encodeI_rd, encodeI_rs1, encodeI_imm]
  | andi rd rs1 imm => rw [decodeWord_andi hmatch, encode, encodeI_rd, encodeI_rs1, encodeI_imm]
  | slli rd rs1 uimm => rw [decodeWord_slli hmatch, encode, encodeI_rd, encodeI_rs1, encodeI_imm]
  | srli rd rs1 uimm => rw [decodeWord_srli hmatch, encode, encodeI_rd, encodeI_rs1, encodeI_imm]
  | srai rd rs1 uimm => rw [decodeWord_srai hmatch, encode, encodeI_rd, encodeI_rs1, encodeI_imm]
  | jal rd offset => rw [decodeWord_jal (match_opcode hmatch), encode, encodeJ_rd, encodeJ_offset (eq_of_beq h)]
  | add rd rs1 rs2 => rw [decodeWord_add hmatch, encode, encodeR_rd, encodeR_rs1, encodeR_rs2]
  | sub rd rs1 rs2 => rw [decodeWord_sub hmatch, encode, encodeR_rd, encodeR_rs1, encodeR_rs2]

/-- Decoding the bytes of a well-formed instruction gives the instruction and the bytes that follow. -/
theorem decode_encodeBytes {i : Instr} (h : i.wf = true) (rest : List Byte) :
    decode (encodeBytes i ++ rest) = .ok (i, rest) := by
  rw [encodeBytes, decode_leBytes, BitVec.ofNat_toNat, BitVec.setWidth_eq, decodeWord_encode h]

/-- Settles O1: every layout gives its fields back, and well-formedness is what funct7 and bit 0 of an offset need. -/
theorem decodeOfEncodeIsTheInstruction : Obligations.DecodeOfEncodeIsTheInstruction :=
  fun _ h => ⟨decodeWord_encode h, decode_encodeBytes h⟩

section
variable {w : InstrWord} {f7 : BitVec 7} {f3 : BitVec 3} {op : BitVec 7}

/-! The layouts put together from a word's own operands and the constants that chose its row. -/

theorem encodeU_eq_word (ho : opcodeField w = op) : encodeU (imm20Field w) (rdField w) op = w := by
  rw [← ho, encodeU_fields]

theorem encodeJ_eq_word (ho : opcodeField w = op) : encodeJ (offsetField w) (rdField w) op = w := by
  rw [← ho, encodeJ_fields]

theorem encodeI_eq_word (ho : opcodeField w = op) (h3 : funct3Field w = f3) :
    encodeI (imm12Field w) (rs1Field w) f3 (rdField w) op = w := by
  rw [← ho, ← h3, encodeI_fields]

theorem encodeR_eq_word (ho : opcodeField w = op) (h3 : funct3Field w = f3) (h7 : funct7Field w = f7) :
    encodeR f7 (rs2Field w) (rs1Field w) f3 (rdField w) op = w := by
  rw [← ho, ← h3, ← h7, encodeR_fields]

end

/-- Encoding what a word decodes to gives the word. -/
theorem encode_of_decodeWord {w : InstrWord} {i : Instr} (h : decodeWord w = .ok i) : encode i = w := by
  rcases decodeWord_cases h with ⟨ho, rfl⟩ | ⟨ho, rfl⟩ | ⟨ho, h⟩ | ⟨ho, rfl⟩ | ⟨ho, h⟩
  · exact encodeU_eq_word ho
  · exact encodeU_eq_word ho
  · rcases decodeImmediate_cases h with ⟨h3, rfl⟩ | ⟨h3, rfl⟩ | ⟨h3, rfl⟩ | ⟨h3, rfl⟩ | ⟨h3, rfl⟩ | ⟨h3, _, rfl⟩ |
      ⟨h3, _, rfl⟩ | ⟨h3, rfl⟩ | ⟨h3, rfl⟩
    all_goals exact encodeI_eq_word ho h3
  · exact encodeJ_eq_word ho
  · obtain ⟨h3, ⟨h7, rfl⟩ | ⟨h7, rfl⟩⟩ := decodeRegister_cases h
    all_goals exact encodeR_eq_word ho h3 h7

/-- Settles O2: the fields an accepted word is decoded to, and the constants its row fixes, are the whole word. -/
theorem encodeOfDecodedWordIsTheWord : Obligations.EncodeOfDecodedWordIsTheWord :=
  fun _ _ h => ⟨decodeWord_wf h, encode_of_decodeWord h⟩

/-- A word that matches a row decodes to an instruction of the row. -/
theorem decodeWord_of_match {w : InstrWord} {m : Mnemonic} (h : w &&& m.row.mask = m.row.pattern) :
    ∃ i, decodeWord w = .ok i ∧ i.mnemonic = m := by
  cases m with
  | lui => exact ⟨_, decodeWord_lui (match_opcode h), rfl⟩
  | auipc => exact ⟨_, decodeWord_auipc (match_opcode h), rfl⟩
  | addi => exact ⟨_, decodeWord_addi h, rfl⟩
  | slti => exact ⟨_, decodeWord_slti h, rfl⟩
  | sltiu => exact ⟨_, decodeWord_sltiu h, rfl⟩
  | xori => exact ⟨_, decodeWord_xori h, rfl⟩
  | ori => exact ⟨_, decodeWord_ori h, rfl⟩
  | andi => exact ⟨_, decodeWord_andi h, rfl⟩
  | slli => exact ⟨_, decodeWord_slli h, rfl⟩
  | srli => exact ⟨_, decodeWord_srli h, rfl⟩
  | srai => exact ⟨_, decodeWord_srai h, rfl⟩
  | jal => exact ⟨_, decodeWord_jal (match_opcode h), rfl⟩
  | add => exact ⟨_, decodeWord_add h, rfl⟩
  | sub => exact ⟨_, decodeWord_sub h, rfl⟩

/-- Settles O3: an accepted word is an encoding, which matches its row; a word that matches a row has the row's fields. -/
theorem decoderAgreesWithMatchAndMask : Obligations.DecoderAgreesWithMatchAndMask := by
  refine fun w m => ⟨?_, ?_⟩
  · rintro ⟨i, hd, rfl⟩
    have hmatch := encode_and_mask (decodeWord_wf hd)
    rw [encode_of_decodeWord hd] at hmatch
    exact ⟨_, i.mnemonic.row_mem, i.mnemonic.row_mnemonic, hmatch⟩
  · rintro ⟨r, hr, rfl, hmatch⟩
    rw [eq_row_of_mem r hr] at hmatch
    exact decodeWord_of_match hmatch

end Sys2Proof
end

section
/-! PROOF. The six fields as numbers, and the word built from them (30_encoding.md R61, R63; 95_test_vectors.md S1). -/

namespace Sys2Proof

/-- A field of a word is a logical shift under a mask of the field's width. -/
theorem toNat_extractLsb'_eq_and (w : InstrWord) (k n : Nat) :
    (w.extractLsb' k n).toNat = (w.toNat >>> k) &&& (2 ^ n - 1) := by
  rw [BitVec.extractLsb'_toNat, Nat.and_two_pow_sub_one_eq_mod]

/-- Settles O6: field by field; the topmost field needs no mask. -/
theorem fieldsAreTheMaskedShifts : Obligations.FieldsAreTheMaskedShifts := by
  intro w
  refine ⟨toNat_extractLsb'_eq_and w 0 7, toNat_extractLsb'_eq_and w 7 5, toNat_extractLsb'_eq_and w 12 3,
    toNat_extractLsb'_eq_and w 15 5, toNat_extractLsb'_eq_and w 20 5, ?_⟩
  have htop : w.toNat >>> 25 < 2 ^ 7 := by have := w.isLt; rw [Nat.shiftRight_eq_div_pow]; omega
  rw [funct7Field, BitVec.extractLsb'_toNat, Nat.mod_eq_of_lt htop]

/-- The R-type layout as a number. -/
theorem toNat_encodeR (f7 : BitVec 7) (rs2 rs1 : Reg) (f3 : BitVec 3) (rd : Reg) (op : BitVec 7) :
    (encodeR f7 rs2 rs1 f3 rd op).toNat =
      f7.toNat <<< 25 ||| rs2.val <<< 20 ||| rs1.val <<< 15 ||| f3.toNat <<< 12 ||| rd.val <<< 7 ||| op.toNat := by
  simp only [encodeR, BitVec.toNat_append, BitVec.toNat_ofFin, Nat.shiftLeft_or_distrib, ← Nat.shiftLeft_add]

/-- Settles O7: the shifts build the R-type layout, which gives its fields back. -/
theorem fieldsOfABuiltWordAreTheFieldsItWasBuiltFrom : Obligations.FieldsOfABuiltWordAreTheFieldsItWasBuiltFrom := by
  rintro f7 rs2 rs1 f3 rd op w rfl
  rw [← toNat_encodeR, BitVec.ofNat_toNat, BitVec.setWidth_eq]
  exact ⟨encodeR_opcode .., encodeR_rd .., encodeR_funct3 .., encodeR_rs1 .., encodeR_rs2 .., encodeR_funct7 ..⟩

end Sys2Proof
end

section
/-! PROOF. The immediates widened (30_encoding.md R64 to R68). -/

namespace Sys2Proof.Machine

theorem toInt_immU (imm20 : BitVec 20) : (immU imm20).toInt = imm20.toInt * 4096 := by
  rw [immU, BitVec.toInt_signExtend_of_le (by decide), BitVec.toInt_append_zero, mul_comm]; rfl

theorem toInt_immI (imm : BitVec 12) : (immI imm).toInt = imm.toInt := BitVec.toInt_signExtend_of_le (by decide)

theorem toNat_uimmI (uimm : BitVec 12) : (uimmI uimm).toNat = uimm.toNat :=
  BitVec.toNat_setWidth_of_le (by decide)

theorem toInt_immJ (offset : BitVec 21) : (immJ offset).toInt = offset.toInt := BitVec.toInt_signExtend_of_le (by decide)

/-- A word cut in two is its two parts, one above the other. -/
theorem append_extractLsb'_low {a b : Nat} (w : BitVec (a + b)) : w.extractLsb' b a ++ w.extractLsb' 0 b = w :=
  (BitVec.extractLsb'_append_extractLsb'_eq_extractLsb' (Nat.zero_add b).symm).trans BitVec.extractLsb'_eq_self

/-- The 20-bit field with 12 zeros below it is the word with its low 12 bits cleared. -/
theorem imm20Field_append_zero (w : InstrWord) : imm20Field w ++ 0#12 = w &&& 0xFFFFF000#32 :=
  calc imm20Field w ++ 0#12
      = (imm20Field w ++ w.extractLsb' 0 12) &&& (BitVec.allOnes 20 ++ 0#12) := by
        rw [BitVec.and_append, BitVec.and_allOnes, BitVec.and_zero]
    _ = w &&& 0xFFFFF000#32 := congrArg (· &&& 0xFFFFF000#32) (append_extractLsb'_low (a := 20) (b := 12) w)

/-- The upper 12 bits, read signed, are the signed word divided by 2^20 rounding down. -/
theorem toInt_imm12Field (w : InstrWord) : (imm12Field w).toInt = w.toInt / 2 ^ 20 := by
  have hw : (imm12Field w ++ w.extractLsb' 0 20).toInt = w.toInt :=
    congrArg BitVec.toInt (append_extractLsb'_low (a := 12) (b := 20) w)
  have hlow := (w.extractLsb' 0 20).isLt
  rw [BitVec.toInt_append, if_neg (by decide)] at hw
  omega

/-- Settles O8: each immediate has the value of its field, and the field's width gives the range. -/
theorem upperAndImmediateFieldsWiden : Obligations.UpperAndImmediateFieldsWiden := by
  intro w
  have hu := toInt_immU (imm20Field w)
  have hulo : -2 ^ 19 ≤ (imm20Field w).toInt := BitVec.le_toInt _
  have huhi : (imm20Field w).toInt < 2 ^ 19 := BitVec.toInt_lt
  have hilo : -2 ^ 11 ≤ (imm12Field w).toInt := BitVec.le_toInt _
  have hihi : (imm12Field w).toInt < 2 ^ 11 := BitVec.toInt_lt
  rw [toInt_immI, toNat_uimmI]
  refine ⟨⟨?_, by omega, by omega, by omega⟩, ⟨toInt_imm12Field w, by omega, by omega⟩,
    toNat_extractLsb'_eq_and w 20 12, by have := (imm12Field w).isLt; omega⟩
  rw [← imm20Field_append_zero, immU, BitVec.toInt_signExtend_of_le (by decide)]

/-- The offset field as a number: the four groups in their places. -/
theorem toNat_offsetField (w : InstrWord) :
    (offsetField w).toNat = ((w.toNat >>> 31) <<< 20) ||| (((w.toNat >>> 12) &&& 0xff) <<< 12) |||
      (((w.toNat >>> 20) &&& 0x1) <<< 11) ||| (((w.toNat >>> 21) &&& 0x3ff) <<< 1) := by
  have htop : (w.extractLsb' 31 1).toNat = w.toNat >>> 31 := by
    have := w.isLt
    rw [BitVec.extractLsb'_toNat, Nat.mod_eq_of_lt (by rw [Nat.shiftRight_eq_div_pow]; omega)]
  simp only [offsetField, BitVec.toNat_append, htop, toNat_extractLsb'_eq_and, Nat.shiftLeft_or_distrib,
    ← Nat.shiftLeft_add]
  exact Nat.or_zero _

/-- A signed number is even when its bit 0 is clear. -/
theorem toInt_even_of_getLsbD_zero {o : BitVec 21} (h : o.getLsbD 0 = false) : o.toInt % 2 = 0 := by
  have hbit : ¬ o.toNat % 2 = 1 := by simpa [BitVec.getLsbD] using h
  rw [BitVec.toInt_eq_toNat_cond]
  split <;> omega

/-- Settles O9: the offset is the four groups as a number; its width and its clear bit 0 give the range. -/
theorem jumpOffsetIsTheFourGroups : Obligations.JumpOffsetIsTheFourGroups := by
  intro w
  have heven := toInt_even_of_getLsbD_zero (offsetField_even w)
  have hlo : -2 ^ 20 ≤ (offsetField w).toInt := BitVec.le_toInt _
  have hhi : (offsetField w).toInt < 2 ^ 20 := BitVec.toInt_lt
  rw [toInt_immJ]
  refine ⟨?_, heven, by omega, by omega⟩
  rw [← toNat_offsetField, BitVec.ofNat_toNat, BitVec.setWidth_eq, immJ]

/-- A sign extension keeps the signed value, so a second one starts from the same number (30_encoding.md R68). -/
theorem signExtend_signExtend_of_le {n k : Nat} (h : n ≤ k) {m : Nat} (v : BitVec n) :
    (v.signExtend k).signExtend m = v.signExtend m := by
  rw [BitVec.signExtend, BitVec.toInt_signExtend_of_le h, ← BitVec.signExtend]

/-- Settles O10: extensions compose, and the U-type field above 12 zeros is the field shifted left. -/
theorem wideningInTwoStagesIsWideningInOne : Obligations.WideningInTwoStagesIsWideningInOne := by
  refine ⟨fun imm => ?_, fun uimm => ?_, fun offset => ?_, fun imm20 => ?_⟩
  · exact (signExtend_signExtend_of_le (by decide) imm).symm
  · exact (BitVec.setWidth_setWidth (by decide)).symm
  · exact (signExtend_signExtend_of_le (by decide) offset).symm
  · rw [immU, BitVec.append_def, BitVec.shiftLeftZeroExtend_eq]; exact congrArg _ BitVec.or_zero

end Sys2Proof.Machine
end

section
/-! PROOF. The unknown words (30_encoding.md R73, R74). -/

namespace Sys2Proof

theorem decodeShiftRight_error_iff (w : InstrWord) :
    (∃ e, decodeShiftRight w = .error e) ↔ funct7Field w ≠ 0b0000000#7 ∧ funct7Field w ≠ 0b0100000#7 := by
  unfold decodeShiftRight
  split_ifs <;> simp [*]

theorem decodeImmediate_error_iff (w : InstrWord) :
    (∃ e, decodeImmediate w = .error e) ↔
      funct3Field w = 0b101#3 ∧ funct7Field w ≠ 0b0000000#7 ∧ funct7Field w ≠ 0b0100000#7 := by
  rw [← decodeShiftRight_error_iff]
  unfold decodeImmediate
  split_ifs <;> simp [*]

theorem decodeRegister_error_iff (w : InstrWord) :
    (∃ e, decodeRegister w = .error e) ↔
      funct3Field w ≠ 0b000#3 ∨ (funct7Field w ≠ 0b0000000#7 ∧ funct7Field w ≠ 0b0100000#7) := by
  unfold decodeRegister
  split_ifs with h0 h1
  · simp [h0]
  · simp [h1]
  · simp only [Except.error.injEq, exists_eq', true_iff]; tauto

/-- The three classes of words the decoder rejects (30_encoding.md R73). -/
theorem decodeWord_error_iff (w : InstrWord) :
    (∃ e, decodeWord w = .error e) ↔
      (opcodeField w ≠ 0x37#7 ∧ opcodeField w ≠ 0x17#7 ∧ opcodeField w ≠ 0x13#7 ∧ opcodeField w ≠ 0x6F#7 ∧
        opcodeField w ≠ 0x33#7) ∨
      (opcodeField w = 0x13#7 ∧ funct3Field w = 0b101#3 ∧ funct7Field w ≠ 0b0000000#7 ∧
        funct7Field w ≠ 0b0100000#7) ∨
      (opcodeField w = 0x33#7 ∧
        (funct3Field w ≠ 0b000#3 ∨ (funct7Field w ≠ 0b0000000#7 ∧ funct7Field w ≠ 0b0100000#7))) := by
  by_cases hlui : opcodeField w = 0x37#7
  · simp [decodeWord_lui hlui, hlui]
  by_cases hauipc : opcodeField w = 0x17#7
  · simp [decodeWord_auipc hauipc, hauipc]
  by_cases himm : opcodeField w = 0x13#7
  · simp [decodeWord_immediate himm, decodeImmediate_error_iff, himm]
  by_cases hjal : opcodeField w = 0x6F#7
  · simp [decodeWord_jal hjal, hjal]
  by_cases hreg : opcodeField w = 0x33#7
  · simp [decodeWord_register hreg, decodeRegister_error_iff, hreg]
  · simp [decodeWord_unknownOpcode ⟨hlui, hauipc, himm, hjal, hreg⟩, *]

end Sys2Proof

namespace Sys2Proof.Machine

/-- An instruction raises nothing. -/
theorem exec_ne_fault (i : Instr) (s : State) (f : Fault) : exec i s ≠ .fault f := by
  obtain ⟨t, _, h, _⟩ := exec_spec i s
  rw [h]; nofun

/-- A dispatch raises at most UnknownInstruction, and exactly on the words the decoder rejects. -/
theorem dispatch_fault_iff (w : InstrWord) (s : State) (f : Fault) :
    dispatch w s = .fault f ↔ f = .unknownInstruction ∧ ∃ e, decodeWord w = .error e := by
  rcases dispatch_cases w s with ⟨i, hd, hx⟩ | ⟨e, hd, hx⟩
  · simp [hx, hd, exec_ne_fault]
  · simp [hx, hd, eq_comm]

/-- Settles O11: the dispatch raises it exactly on the words the decoder rejects, and those are the three classes. -/
theorem unknownWordsAreExactlyTheThreeClasses : Obligations.UnknownWordsAreExactlyTheThreeClasses := by
  intro w s
  rw [dispatch_fault_iff, decodeWord_error_iff]
  exact and_iff_right rfl

/-- A word other than 0 runs as its dispatch. -/
theorem runWord_of_ne_zero {w : InstrWord} (h : w ≠ 0#32) (s : State) : runWord w s = dispatch w s := if_neg h

/-- A word with opcode 0000000 is unknown. -/
theorem dispatch_of_opcode_zero {w : InstrWord} (h : opcodeField w = 0#7) (s : State) :
    dispatch w s = .fault .unknownInstruction := by
  rw [dispatch_fault_iff, decodeWord_error_iff, h]
  exact ⟨rfl, .inl (by decide)⟩

/-- Settles O12: the sentinel test comes first, and a dispatch raises UnknownInstruction at most. -/
theorem onlyTheZeroWordIsTheSentinel : Obligations.OnlyTheZeroWordIsTheSentinel := by
  refine fun w s => ⟨dispatch_of_opcode_zero rfl s, ⟨fun h => ?_, ?_⟩, fun hw ho => ?_⟩
  · by_contra hw
    rw [runWord_of_ne_zero hw, dispatch_fault_iff] at h
    exact nomatch h
  · rintro rfl; rfl
  · rw [runWord_of_ne_zero hw, dispatch_of_opcode_zero ho]

end Sys2Proof.Machine
end

section
/-! PROOF. The fetch and the step as functions of the fetched word (40_fetch_and_step.md R90 to R101): one equation for
each of a step's four ends. -/

namespace Sys2Proof

/-- Four bytes that decode are the bytes of a word that decodes to the same instruction. -/
theorem decodeWord_of_decode {bytes rest : List Byte} {i : Instr} (hlen : bytes.length = 4)
    (h : decode bytes = .ok (i, rest)) : decodeWord (wordOfBytes bytes) = .ok i := by
  match bytes, hlen with
  | [b0, b1, b2, b3], _ =>
    simp only [decode] at h
    split at h
    · next hd => cases h; exact hd
    · cases h

/-- A word that decodes is not the sentinel (30_encoding.md R74). -/
theorem ne_zero_of_decodeWord {w : InstrWord} {i : Instr} (h : decodeWord w = .ok i) : w ≠ 0#32 := by
  rintro rfl
  exact nomatch h

end Sys2Proof

namespace Sys2Proof.Machine

/-- A read of `n` bytes that succeeds answers `n` bytes. -/
theorem State.length_of_memRead {s : State} {a n : Nat} {bytes : List Byte} (h : s.memRead a n = .ok bytes) :
    bytes.length = n := by
  rcases Nat.lt_or_ge s.cfg.memCapacity (a + n) with hf | hf
  · cases (memRead_error hf).symm.trans h
  · cases (memRead_ok hf).symm.trans h
    exact Memory.length_bytesAt ..

/-- A fetch raises at most OutOfBounds, and exactly where its four bytes do not all exist (40_fetch_and_step.md R91). -/
theorem fetch_error_iff (s : State) (f : Fault) :
    fetch s = .error f ↔ f = .outOfBounds ∧ s.cfg.memCapacity < s.pc.toNat + 4 := by
  rcases fetch_cases s with ⟨hb, hf⟩ | ⟨hb, hf⟩
  · rw [hf]
    exact ⟨nofun, fun h => absurd h.2 (by omega)⟩
  · rw [hf]
    exact ⟨fun h => by cases h; exact ⟨rfl, hb⟩, fun h => by rw [h.1]⟩

/-- Settles O39: both clauses are read off `fetch_error_iff`. -/
theorem fetchFailsExactlyOutsideMemory : Obligations.FetchFailsExactlyOutsideMemory :=
  fun s => ⟨(fetch_error_iff s _).trans (and_iff_right rfl), fun f h => ((fetch_error_iff s f).mp h).1⟩

/-- A step that fetches the zero word halts (40_fetch_and_step.md R95). -/
theorem step_of_sentinel {s : State} (h : fetch s = .ok 0#32) : step s = .fault .haltSentinel := step_of_fetch h

/-- A step that fetches a nonzero word that does not decode is UnknownInstruction (40_fetch_and_step.md R96). -/
theorem step_of_unknown {s : State} {w : InstrWord} {e : DecodeError} (hf : fetch s = .ok w) (hw : w ≠ 0#32)
    (hd : decodeWord w = .error e) : step s = .fault .unknownInstruction := by
  rw [step_of_fetch hf, runWord_of_ne_zero hw, dispatch_fault_iff]
  exact ⟨rfl, e, hd⟩

/-- A step that fetches a word that decodes runs the instruction (40_fetch_and_step.md R94). -/
theorem step_of_decoded {s : State} {w : InstrWord} {i : Instr} (hf : fetch s = .ok w) (hd : decodeWord w = .ok i) :
    step s = exec i s := by
  rw [step_of_fetch hf, runWord_of_ne_zero (ne_zero_of_decodeWord hd), dispatch, hd]

/-- Settles O41: the bytes at pc are the fetched word's, and the decoder answers well-formed instructions only. -/
theorem stepRunsTheDecodedInstruction : Obligations.StepRunsTheDecodedInstruction := by
  intro s bytes rest i hread hdecode
  have hd : decodeWord (wordOfBytes bytes) = .ok i := decodeWord_of_decode (State.length_of_memRead hread) hdecode
  exact ⟨decodeWord_wf hd, step_of_decoded (fetch_of_memRead hread) hd⟩

/-- Settles O42: the four equations of a step, and that every instruction completes. -/
theorem stepTestsBoundsThenSentinelThenDecode : Obligations.StepTestsBoundsThenSentinelThenDecode := by
  refine fun s => ⟨step_outOfBounds, fun hb => ?_⟩
  have hf := fetch_of_memRead (State.memRead_ok hb)
  refine ⟨_, hf, fun h0 => step_of_sentinel (h0 ▸ hf), fun hw _ hd => step_of_unknown hf hw hd, fun _ i hd => ?_⟩
  have hstep := step_of_decoded hf hd
  obtain ⟨t, _, he, _⟩ := exec_spec i s
  exact ⟨hstep, t, hstep.trans he⟩

end Sys2Proof.Machine
end

section
/-! PROOF. How a run ends (40_fetch_and_step.md R95 to R100), and that its registers have no part in it (R102). -/

namespace Sys2Proof.Machine

/-- A fault ends the run, with the state before the step. -/
theorem Run.tick_start_of_fault {s : State} {f : Fault} (h : step s = .fault f) :
    (Run.start s).tick = ⟨s, RunStatus.ofFault f⟩ := by
  simp only [Run.start, Run.tick, h]

/-- A next state leaves the run running there. -/
theorem Run.tick_start_of_next {s t : State} (h : step s = .next t) : (Run.start s).tick = Run.start t := by
  simp only [Run.start, Run.tick, h]

/-- Settles O44: the fetch fails only beyond Memory, where the step raises OutOfBounds. -/
theorem outOfBoundsEndsTheRunUnchanged : Obligations.OutOfBoundsEndsTheRunUnchanged := by
  intro s h
  obtain ⟨_, hb⟩ := (fetch_error_iff s _).mp h
  exact Run.tick_start_of_fault (step_outOfBounds hb)

/-- Settles O45: such a word makes the step raise UnknownInstruction. -/
theorem unknownInstructionEndsTheRunUnchanged : Obligations.UnknownInstructionEndsTheRunUnchanged :=
  fun _ _ _ hf hw hd => Run.tick_start_of_fault (step_of_unknown hf hw hd)

/-- A step halts on the zero word and on no other (40_fetch_and_step.md R95). -/
theorem step_haltSentinel_iff (s : State) : step s = .fault .haltSentinel ↔ fetch s = .ok 0#32 := by
  refine ⟨fun h => ?_, step_of_sentinel⟩
  rcases step_cases s with ⟨_, e⟩ | ⟨hf, _⟩ | ⟨_, _, _, _, _, e⟩ | ⟨_, i, _, _, _, e⟩
  · cases e.symm.trans h
  · exact hf
  · cases e.symm.trans h
  · exact absurd (e.symm.trans h) (exec_ne_fault i s _)

/-- The halt is the one fault that ends a run normally. -/
theorem RunStatus.ofFault_endedNormally_iff (f : Fault) : RunStatus.ofFault f = .endedNormally ↔ f = .haltSentinel := by
  cases f <;> simp [RunStatus.ofFault]

/-- A running run ends normally exactly when its step halts. -/
theorem Run.tick_start_endedNormally_iff (s : State) :
    (Run.start s).tick.status = .endedNormally ↔ step s = .fault .haltSentinel := by
  obtain ⟨t, e⟩ | ⟨f, e, _⟩ := step_completes_or_ends s
  · rw [Run.tick_start_of_next e, e]
    exact ⟨nofun, nofun⟩
  · rw [Run.tick_start_of_fault e, e, RunStatus.ofFault_endedNormally_iff, Host.Outcome.fault.injEq]

/-- Settles O43: the run ends normally when the step halts, which it does on the zero word alone. -/
theorem sentinelEndsTheRunNormally : Obligations.SentinelEndsTheRunNormally := by
  intro s
  refine ⟨step_haltSentinel_iff s, (Run.tick_start_endedNormally_iff s).trans (step_haltSentinel_iff s), fun h => ?_⟩
  rw [Run.tick_start_of_fault (step_of_sentinel h)]

/-- Passes add up. -/
theorem Run.ticks_add (r : Run) (m n : Nat) : r.ticks (m + n) = (r.ticks m).ticks n := by
  induction m generalizing r with
  | zero => rw [Nat.zero_add]; rfl
  | succ m ih => rw [Nat.succ_add]; exact ih r.tick

/-- Any number of passes over a run that is not running changes nothing. -/
theorem Run.ticks_of_not_running {r : Run} (h : r.status ≠ .running) (n : Nat) : r.ticks n = r := by
  induction n with
  | zero => rfl
  | succ n ih => rw [Run.ticks, Run.tick_of_not_running h, ih]

/-- Settles O46: the last `n` passes are over a run that is not running. -/
theorem endedRunIsFinal : Obligations.EndedRunIsFinal := by
  intro r m n h
  rw [Run.ticks_add, Run.ticks_of_not_running h]

/-- An instruction keeps two states alike but for their registers: the pc it leaves is a function of the pc before
(43_jump.md R140: no jump reads a register). -/
theorem exec_keeps_sameButRegs (i : Instr) {s s' : State} (h : SameButRegs s s') :
    ∃ t t', exec i s = .next t ∧ exec i s' = .next t' ∧ SameButRegs t t' := by
  obtain ⟨hpc, hmem, hcfg⟩ := h
  obtain ⟨t, _, he, ⟨_, _, hc⟩, hm, hp⟩ := everyInstructionCompletesAndWritesOnlyItsDestination i s
  obtain ⟨t', _, he', ⟨_, _, hc'⟩, hm', hp'⟩ := everyInstructionCompletesAndWritesOnlyItsDestination i s'
  exact ⟨t, t', he, he', by rw [hp, hp', hpc], by rw [hm, hm', hmem], by rw [hc, hc', hcfg]⟩

/-- Two states alike but for their registers step alike: both end in the same fault, or both go on, alike again. -/
theorem step_sameButRegs {s s' : State} (h : SameButRegs s s') :
    (∃ f, step s = .fault f ∧ step s' = .fault f) ∨
      ∃ t t', step s = .next t ∧ step s' = .next t' ∧ SameButRegs t t' := by
  have hfetch := fetch_congr h
  rcases step_cases s with ⟨hf, e⟩ | ⟨hf, e⟩ | ⟨w, x, hf, hw, hd, e⟩ | ⟨w, i, hf, _, hd, e⟩ <;> rw [hfetch] at hf
  · obtain ⟨_, hb⟩ := (fetch_error_iff s' _).mp hf
    exact .inl ⟨_, e, step_outOfBounds hb⟩
  · exact .inl ⟨_, e, step_of_sentinel hf⟩
  · exact .inl ⟨_, e, step_of_unknown hf hw hd⟩
  · obtain ⟨t, t', he, he', ht⟩ := exec_keeps_sameButRegs i h
    exact .inr ⟨t, t', e.trans he, (step_of_decoded hf hd).trans he', ht⟩

/-- Runs from two states alike but for their registers stay alike through every number of passes. -/
theorem Run.ticks_sameButRegs (n : Nat) {s s' : State} (h : SameButRegs s s') :
    SameButRegs ((Run.start s).ticks n).cpu ((Run.start s').ticks n).cpu ∧
      ((Run.start s).ticks n).status = ((Run.start s').ticks n).status := by
  induction n generalizing s s' with
  | zero => exact ⟨h, rfl⟩
  | succ n ih =>
    simp only [Run.ticks]
    obtain ⟨f, e, e'⟩ | ⟨t, t', e, e', ht⟩ := step_sameButRegs h
    · have hended : RunStatus.ofFault f ≠ .running := by cases f <;> nofun
      rw [Run.tick_start_of_fault e, Run.tick_start_of_fault e', Run.ticks_of_not_running hended,
        Run.ticks_of_not_running hended]
      exact ⟨h, rfl⟩
    · rw [Run.tick_start_of_next e, Run.tick_start_of_next e']
      exact ih ht

/-- Settles O59: the runs stay alike but for their registers, pc and status included. -/
theorem controlFlowIsIndependentOfRegisters : Obligations.ControlFlowIsIndependentOfRegisters := by
  intro s s' n h
  obtain ⟨⟨hpc, _⟩, hstatus⟩ := Run.ticks_sameButRegs n h
  exact ⟨hpc, hstatus⟩

end Sys2Proof.Machine
end

section
/-! PROOF. The upper-immediate instructions (41_upper_immediate.md R110, R111), and the seven worked words that decode to
instructions of each shape. -/

namespace Sys2Proof

/-- Settles O5: each word matches its row, and the operands are its fields. -/
theorem workedExampleWordsDecode : Obligations.WorkedExampleWordsDecode :=
  ⟨decodeWord_lui rfl, decodeWord_auipc rfl, decodeWord_addi rfl, decodeWord_sltiu rfl, decodeWord_srai rfl,
    decodeWord_jal rfl, decodeWord_sub rfl⟩

end Sys2Proof

namespace Sys2Proof.Machine

/-- Everything `retire` does: it completes, writes its destination alone and advances pc by 4. -/
theorem retire_spec (rd : Reg) (v : Word) (s : State) :
    ∃ t, retire rd v s = .next t ∧ WritesOnly rd v s t ∧ t.pc = s.pc + 4#64 := by
  obtain ⟨t, ht⟩ := commit_completes rd v (s.pc + 4#64) s
  obtain ⟨hw, hpc, _⟩ := commit_spec ht
  exact ⟨t, ht, hw, hpc⟩

/-- The U-type immediate as a word is its signed value, 4096 times the field's. -/
theorem immU_eq_ofInt (imm20 : BitVec 20) : immU imm20 = BitVec.ofInt 64 (imm20.toInt * 4096) := by
  rw [← toInt_immU, BitVec.ofInt_toInt]

/-- Adding a word is adding its signed value to the unsigned value of the other, modulo 2^64. -/
theorem add_eq_ofInt_toNat_add_toInt (a b : Word) : a + b = BitVec.ofInt 64 (a.toNat + b.toInt) := by
  rw [BitVec.ofInt_add, BitVec.ofInt_natCast, BitVec.ofNat_toNat, BitVec.setWidth_eq, BitVec.ofInt_toInt]

/-- Settles O13: `retire` of the immediate, which is its field times 4096. -/
theorem luiLoadsTheUpperImmediate : Obligations.LuiLoadsTheUpperImmediate := by
  refine ⟨fun w h => decodeWord_lui (match_opcode h), fun rd imm20 s => ?_⟩
  rw [← immU_eq_ofInt]
  exact retire_spec rd (immU imm20) s

/-- Settles O14: `retire` of the sum of pc and the immediate, the sum taken on integers and reduced. -/
theorem auipcAddsTheUpperImmediateToPc : Obligations.AuipcAddsTheUpperImmediateToPc := by
  refine ⟨fun w h => decodeWord_auipc (match_opcode h), fun rd imm20 s => ?_⟩
  rw [← toInt_immU, ← add_eq_ofInt_toNat_add_toInt]
  exact retire_spec rd (s.pc + immU imm20) s

end Sys2Proof.Machine
end

section
/-! PROOF. The register-immediate instructions (42_integer_immediate.md R120 to R130): each operation of the model as the
integer arithmetic, or bit by bit as the rule, that the statements write out. -/

namespace Sys2Proof.Machine

/-- Settles O15: `retire` of the sum of the register and the immediate, taken on signed integers and reduced. -/
theorem addiAddsTheSignExtendedImmediate : Obligations.AddiAddsTheSignExtendedImmediate := by
  refine ⟨fun w h => decodeWord_addi h, fun rd rs1 imm s => ?_⟩
  rw [← toInt_immI, BitVec.ofInt_add, BitVec.ofInt_toInt, BitVec.ofInt_toInt]
  exact retire_spec rd (s.getReg rs1 + immI imm) s

/-- The signed comparison as a word (00_scope.md R9). -/
theorem truthWord_lessSigned (a b : Word) :
    truthWord (lessSigned a b) = if a.toInt < b.toInt then 1#64 else 0#64 := by
  simp only [truthWord, lessSigned, BitVec.slt_iff_toInt_lt]

/-- The unsigned comparison as a word (00_scope.md R9). -/
theorem truthWord_lessUnsigned (a b : Word) :
    truthWord (lessUnsigned a b) = if a.toNat < b.toNat then 1#64 else 0#64 := by
  simp only [truthWord, lessUnsigned, BitVec.ult_iff_toNat_lt]

/-- Settles O16: the immediate widened by its sign has the signed value of its field. -/
theorem sltiComparesSigned : Obligations.SltiComparesSigned := by
  refine ⟨fun w h => decodeWord_slti h, fun rd rs1 imm s => ?_⟩
  rw [← toInt_immI, ← truthWord_lessSigned]
  exact retire_spec rd (truthWord (lessSigned (s.getReg rs1) (immI imm))) s

/-- Settles O17: the immediate widened by zeros has the unsigned value of its field. -/
theorem sltiuComparesUnsignedWithTheZeroExtendedField :
    Obligations.SltiuComparesUnsignedWithTheZeroExtendedField := by
  refine ⟨fun w h => decodeWord_sltiu h, fun rd rs1 uimm s => ?_⟩
  rw [← toNat_uimmI, ← truthWord_lessUnsigned]
  exact retire_spec rd (truthWord (lessUnsigned (s.getReg rs1) (uimmI uimm))) s

/-! ### The bitwise operations -/

/-- Bits 63 to 11 of the sign-extended immediate are bit 11 of the field (30_encoding.md R65). -/
theorem getLsbD_immI (imm : BitVec 12) {k : Nat} (hk : k < 64) : (immI imm).getLsbD k = imm.getLsbD (min k 11) := by
  rw [immI, BitVec.getLsbD_signExtend, decide_eq_true hk, Bool.true_and]
  split
  · next hlow => rw [Nat.min_eq_left (by omega)]
  · next hhigh => rw [Nat.min_eq_right (by omega)]; rfl

/-- Bit by bit, the OR with the sign-extended immediate: what `ori` and one reading of `andi` compute. -/
theorem getLsbD_or_immI (a : Word) (imm : BitVec 12) (k : Nat) (hk : k < 64) :
    (a ||| immI imm).getLsbD k = (a.getLsbD k || imm.getLsbD (min k 11)) := by
  rw [BitVec.getLsbD_or, getLsbD_immI imm hk]

/-- Settles O18: `retire` of the exclusive OR, read bit by bit. -/
theorem xoriFlipsTheBitsOfTheSignExtendedImmediate : Obligations.XoriFlipsTheBitsOfTheSignExtendedImmediate := by
  refine ⟨fun w h => decodeWord_xori h, fun rd rs1 imm s => ?_⟩
  obtain ⟨t, ht, hw, hpc⟩ := retire_spec rd (s.getReg rs1 ^^^ immI imm) s
  exact ⟨t, _, ht, fun k hk => by rw [BitVec.getLsbD_xor, getLsbD_immI imm hk], hw, hpc⟩

/-- Settles O19: `retire` of the OR, read bit by bit. -/
theorem oriSetsTheBitsOfTheSignExtendedImmediate : Obligations.OriSetsTheBitsOfTheSignExtendedImmediate := by
  refine ⟨fun w h => decodeWord_ori h, fun rd rs1 imm s => ?_⟩
  obtain ⟨t, ht, hw, hpc⟩ := retire_spec rd (s.getReg rs1 ||| immI imm) s
  exact ⟨t, _, ht, getLsbD_or_immI _ imm, hw, hpc⟩

@[simp] theorem andiResult_and (a b : Word) : andiResult .and a b = a &&& b := rfl
@[simp] theorem andiResult_or (a b : Word) : andiResult .or a b = a ||| b := rfl

theorem exec_andi (rd rs1 : Reg) (imm : BitVec 12) (s : State) :
    exec (.andi rd rs1 imm) s = retire rd (andiResult s.cfg.andiOp (s.getReg rs1) (immI imm)) s := rfl

theorem exec_ori (rd rs1 : Reg) (imm : BitVec 12) (s : State) :
    exec (.ori rd rs1 imm) s = retire rd (s.getReg rs1 ||| immI imm) s := rfl

/-- Settles O20: `retire` of the operation ANDI_OP selects, read bit by bit for each of its two values. -/
theorem andiFollowsAndiOp : Obligations.AndiFollowsAndiOp := by
  refine ⟨fun w h => decodeWord_andi h, fun rd rs1 imm s => ⟨?_, fun hor => ?_⟩⟩
  · obtain ⟨t, ht, hw, hpc⟩ := retire_spec rd (andiResult s.cfg.andiOp (s.getReg rs1) (immI imm)) s
    refine ⟨t, _, ht, fun hand => ?_, fun hor => ?_, hw, hpc⟩
    · intro k hk; rw [hand, andiResult_and, BitVec.getLsbD_and, getLsbD_immI imm hk]
    · rw [hor, andiResult_or]; exact getLsbD_or_immI _ imm
  · rw [exec_andi, exec_ori, hor, andiResult_or]

/-! ### The shifts -/

/-- The shift amount is the field modulo 32 (42_integer_immediate.md R130). -/
theorem shiftAmount_eq_mod (uimm : BitVec 12) : shiftAmount uimm = uimm.toNat % 32 := by
  rw [shiftAmount, BitVec.toNat_and, toNat_uimmI]
  exact Nat.and_two_pow_sub_one_eq_mod _ 5

/-- A left shift multiplies the unsigned value, modulo 2^64. -/
theorem shiftLeft_eq_ofNat_mul (a : Word) (n : Nat) : a <<< n = BitVec.ofNat 64 (a.toNat * 2 ^ n) := by
  apply BitVec.eq_of_toNat_eq
  rw [BitVec.toNat_shiftLeft, BitVec.toNat_ofNat, Nat.shiftLeft_eq]

/-- A logical right shift divides the unsigned value, rounding down. -/
theorem ushiftRight_eq_ofNat_div (a : Word) (n : Nat) : a >>> n = BitVec.ofNat 64 (a.toNat / 2 ^ n) := by
  rw [← Nat.shiftRight_eq_div_pow, ← BitVec.toNat_ushiftRight, BitVec.ofNat_toNat, BitVec.setWidth_eq]

/-- An arithmetic right shift divides the signed value, rounding down. -/
theorem sshiftRight_eq_ofInt_div (a : Word) (n : Nat) : a.sshiftRight n = BitVec.ofInt 64 (a.toInt / 2 ^ n) := by
  rw [BitVec.sshiftRight, Int.shiftRight_eq_div_pow]; norm_cast

/-- A shift's 12-bit field is its `funct7`, 32 times, and the amount (30_encoding.md R63, shift form). -/
theorem toNat_imm12Field_eq (w : InstrWord) :
    (imm12Field w).toNat = 32 * (funct7Field w).toNat + (imm12Field w).toNat % 32 := by
  have hlt : (imm12Field w).toNat < 2 ^ 12 := (imm12Field w).isLt
  rw [← shiftFunct7_imm12Field, Instr.shiftFunct7, BitVec.extractLsb'_toNat, Nat.shiftRight_eq_div_pow]
  omega

/-- Settles O21: `retire` of the left shift by the field modulo 32. -/
theorem slliMultipliesByAPowerOfTwo : Obligations.SlliMultipliesByAPowerOfTwo := by
  refine ⟨fun w h => decodeWord_slli h, fun rd rs1 uimm s => ?_⟩
  rw [← shiftAmount_eq_mod, ← shiftLeft_eq_ofNat_mul]
  exact retire_spec rd (s.getReg rs1 <<< shiftAmount uimm) s

/-- Settles O22: `retire` of the logical right shift; funct7 = 0000000 keeps the field below 32. -/
theorem srliDividesUnsigned : Obligations.SrliDividesUnsigned := by
  refine ⟨fun w h => ⟨decodeWord_srli h, ?_⟩, fun rd rs1 uimm s => ?_⟩
  · obtain ⟨_, _, h7⟩ := match_funct7 h
    have hzero : (funct7Field w).toNat = 0 := congrArg BitVec.toNat h7
    have hfield := toNat_imm12Field_eq w
    omega
  · rw [← shiftAmount_eq_mod, ← ushiftRight_eq_ofNat_div]
    exact retire_spec rd (s.getReg rs1 >>> shiftAmount uimm) s

/-- Settles O23: `retire` of the arithmetic right shift; funct7 = 0100000 is the field's 0x400. -/
theorem sraiDividesSigned : Obligations.SraiDividesSigned := by
  refine ⟨fun w h => ⟨decodeWord_srai h, ?_⟩, fun rd rs1 uimm s => ?_⟩
  · obtain ⟨_, _, h7⟩ := match_funct7 h
    have h32 : (funct7Field w).toNat = 32 := congrArg BitVec.toNat h7
    have hfield := toNat_imm12Field_eq w
    omega
  · rw [← shiftAmount_eq_mod, ← sshiftRight_eq_ofInt_div]
    exact retire_spec rd ((s.getReg rs1).sshiftRight (shiftAmount uimm)) s

end Sys2Proof.Machine
end

section
/-! PROOF. The jump (43_jump.md R140; 40_fetch_and_step.md R99): link and target as sums of integers, reduced. -/

namespace Sys2Proof.Machine

/-- R140: the link and the target, both from the pc of the `jal`; R99: pc becomes the target, not the target plus 4. -/
theorem exec_jal (rd : Reg) (offset : BitVec 21) (s : State) :
    exec (.jal rd offset) s = commit rd (s.pc + 4#64) (s.pc + immJ offset) s := rfl

/-- The link is the sum of naturals, modulo 2^64. -/
theorem link_eq_ofNat (pc : Word) : pc + 4#64 = BitVec.ofNat 64 (pc.toNat + 4) := by
  rw [BitVec.ofNat_add, BitVec.ofNat_toNat, BitVec.setWidth_eq]

/-- The target is the sum of the unsigned pc and the signed offset, modulo 2^64. -/
theorem target_eq_ofInt (pc : Word) (offset : BitVec 21) :
    pc + immJ offset = BitVec.ofInt 64 (pc.toNat + offset.toInt) := by
  rw [add_eq_ofInt_toNat_add_toInt, toInt_immJ]

/-- Settles O24: `commit` of the link and the target, each sum taken on integers and reduced. -/
theorem jalLinksAndJumps : Obligations.JalLinksAndJumps := by
  refine ⟨fun w h => decodeWord_jal (match_opcode h), fun rd offset s => ?_⟩
  rw [exec_jal, ← link_eq_ofNat, ← target_eq_ofInt]
  obtain ⟨t, ht⟩ := commit_completes rd (s.pc + 4#64) (s.pc + immJ offset) s
  obtain ⟨hw, hpc, _⟩ := commit_spec ht
  exact ⟨t, ht, hw, hpc⟩

end Sys2Proof.Machine
end

section
/-! PROOF. The register-register instructions (44_integer_register.md R150, R151), and the agreement of the two arithmetic
widths on a result that fits in 32 bits (R153, D1). -/

namespace Sys2Proof.Machine

/-- Settles O25: `retire` of the sum of the two registers, taken on signed integers and reduced. -/
theorem addAddsTwoRegisters : Obligations.AddAddsTwoRegisters := by
  refine ⟨fun w h => decodeWord_add h, fun rd rs1 rs2 s => ?_⟩
  rw [BitVec.ofInt_add, BitVec.ofInt_toInt, BitVec.ofInt_toInt]
  exact retire_spec rd (s.getReg rs1 + s.getReg rs2) s

/-- Subtraction of words is subtraction of their signed values, modulo 2^64. -/
theorem sub_eq_ofInt_toInt_sub (a b : Word) : a - b = BitVec.ofInt 64 (a.toInt - b.toInt) := by
  rw [Int.sub_eq_add_neg, BitVec.ofInt_add, BitVec.ofInt_neg, BitVec.ofInt_toInt, BitVec.ofInt_toInt,
    BitVec.sub_eq_add_neg]

/-- Settles O26: `retire` of the first register minus the second, taken on signed integers and reduced. -/
theorem subSubtractsTheSecondRegister : Obligations.SubSubtractsTheSecondRegister := by
  refine ⟨fun w h => decodeWord_sub h, fun rd rs1 rs2 s => ?_⟩
  rw [← sub_eq_ofInt_toInt_sub]
  exact retire_spec rd (s.getReg rs1 - s.getReg rs2) s

/-! ### The two arithmetic widths -/

/-- A value in the signed 32-bit range is its own narrowing, whatever ARITH_NARROW32 (00_scope.md R10). -/
theorem narrowed_of_fits (c : Config) {v : Word} (hlow : -(2 : Int) ^ 31 ≤ v.toInt) (hhigh : v.toInt < 2 ^ 31) :
    narrowed c v = v := by
  cases hc : c.arithNarrow32 with
  | false => exact narrowed_of_wide hc v
  | true =>
    have hmod : v.toInt.bmod (2 ^ 32) = v.toInt := Int.bmod_eq_of_le (by omega) (by omega)
    rw [narrowed_of_narrow hc, sext32_eq_ofInt_bmod, hmod, BitVec.ofInt_toInt]

/-- `s` with another ARITH_NARROW32 and the other three parameters as they were. -/
def State.setNarrow32 (s : State) (b : Bool) : State := { s with cfg := { s.cfg with arithNarrow32 := b } }

@[simp] theorem State.getReg_setNarrow32 (s : State) (b : Bool) (r : Reg) :
    (s.setNarrow32 b).getReg r = s.getReg r := rfl

/-- No instruction computes with ARITH_NARROW32: the value and the next pc it commits are the same under either setting,
which acts on the register write alone (44_integer_register.md R153). -/
theorem exec_setNarrow32_commits_alike (i : Instr) (s : State) (b : Bool) :
    ∃ v n, exec i s = commit i.dest v n s ∧ exec i (s.setNarrow32 b) = commit i.dest v n (s.setNarrow32 b) := by
  cases i with
  | _ => exact ⟨_, _, rfl, rfl⟩

/-- Settles O31: both settings commit one value and one pc. Wide, rd reads that value, so it fits, and the narrow write
stores it unchanged; with rd = 0 there is no write to differ in. -/
theorem widthReadingsAgreeWhenTheResultFits : Obligations.WidthReadingsAgreeWhenTheResultFits := by
  intro i s t hwide hexec hlow hhigh
  obtain ⟨v, n, he, he'⟩ := exec_setNarrow32_commits_alike i s true
  obtain ⟨t', hc'⟩ := commit_completes i.dest v n (s.setNarrow32 true)
  obtain ⟨⟨hregs, _⟩, hpc, _⟩ := commit_spec (he.symm.trans hexec)
  obtain ⟨⟨hregs', _⟩, hpc', _⟩ := commit_spec hc'
  refine ⟨t', he'.trans hc', fun r => ?_, hpc'.trans hpc.symm⟩
  rw [hregs, hregs', State.getReg_setNarrow32]
  split
  · rfl
  next hr =>
  split
  · next hdest =>
    have hres : t.getReg i.dest = v := by
      rw [hregs, if_neg (hdest ▸ hr), if_pos rfl, narrowed_of_wide hwide]
    rw [hres] at hlow hhigh
    rw [narrowed_of_fits _ hlow hhigh, narrowed_of_fits _ hlow hhigh]
  · rfl

end Sys2Proof.Machine
end

section
/-! PROOF. The families this hardware does not have (45_absent_families.md): their words are refused by opcode, or by the
register operation within opcode 0110011. -/

namespace Sys2Proof.Machine

/-- The opcodes of the dispatch table (30_encoding.md R69). -/
def dispatchedOpcodes : List (BitVec 7) := [0b0110111#7, 0b0010111#7, 0b0010011#7, 0b1101111#7, 0b0110011#7]

/-- No opcode of the table is that of a compressed instruction (45_absent_families.md R168). -/
theorem dispatchedOpcodes_low_bits : ∀ o ∈ dispatchedOpcodes, o.extractLsb' 0 2 = 0b11#2 := by decide

/-- A word with an opcode outside the table is unknown, whatever its other fields. -/
theorem dispatch_of_opcode_not_mem {w : InstrWord} (h : opcodeField w ∉ dispatchedOpcodes) (s : State) :
    dispatch w s = .fault .unknownInstruction := by
  rw [dispatch_fault_iff, decodeWord_error_iff]
  exact ⟨rfl, .inl (by simpa [dispatchedOpcodes] using h)⟩

/-- A word whose opcode is in a list that shares none with the table is unknown. -/
theorem dispatch_of_opcode_mem {absent : List (BitVec 7)} (habsent : ∀ o ∈ dispatchedOpcodes, o ∉ absent)
    {w : InstrWord} (h : opcodeField w ∈ absent) (s : State) : dispatch w s = .fault .unknownInstruction :=
  dispatch_of_opcode_not_mem (fun hmem => habsent _ hmem h) s

/-- A register operation that is neither `add` nor `sub` is unknown (44_integer_register.md R152). -/
theorem dispatch_of_unknown_registerOp {w : InstrWord} (ho : opcodeField w = 0b0110011#7)
    (h : funct3Field w ≠ 0b000#3 ∨ (funct7Field w ≠ 0b0000000#7 ∧ funct7Field w ≠ 0b0100000#7)) (s : State) :
    dispatch w s = .fault .unknownInstruction := by
  rw [dispatch_fault_iff, decodeWord_error_iff]
  exact ⟨rfl, .inr (.inr ⟨ho, h⟩)⟩

/-- Settles O48: a step that answers a next state wrote one register and pc, and the store opcode is not in the table. -/
theorem noStepChangesMemory : Obligations.NoStepChangesMemory := by
  refine ⟨fun s t h => ?_, fun w s ho => dispatch_of_opcode_not_mem (by rw [ho]; decide) s⟩
  obtain ⟨_, _, _, _, _, ⟨_, hbytes, hcfg⟩, hmem, _⟩ := step_next_spec h
  exact ⟨hmem, hcfg, hbytes⟩

/-- Settles O49: the listed opcodes and the compressed ones are not in the table, and of opcode 0110011 the multiply and
divide group has neither funct7 the table knows. -/
theorem absentFamiliesAreUnknown : Obligations.AbsentFamiliesAreUnknown := by
  rintro w s (hfamily | hcompressed | ⟨ho, hop⟩)
  · exact dispatch_of_opcode_mem (by decide) hfamily s
  · exact dispatch_of_opcode_not_mem (fun hmem => hcompressed (dispatchedOpcodes_low_bits _ hmem)) s
  · exact dispatch_of_unknown_registerOp ho (hop.imp_right fun h7 => by rw [h7]; decide) s

end Sys2Proof.Machine
end

section
/-! PROOF. Reset, boot and the host's operations (70_reset_and_hazards.md R190 to R198): what reset and boot leave, and that
the host's writes keep the invariant. -/

namespace Sys2Proof.Machine

/-- A boot that completes placed an image that fits at offset 0 of the reset state (70_reset_and_hazards.md R192). -/
theorem boot_next {c : Config} {image : List Byte} {s : State} (h : boot c image = .next s) :
    image.length ≤ c.memCapacity ∧ s = (State.resetWith c).storeBytes 0 image :=
  State.load_next h

/-- A `set_register` that completes was one register write (10_state.md R37). -/
theorem State.hostSetRegister_next {s t : State} {n : Nat} {v : Word} (h : s.hostSetRegister n v = .next t) :
    ∃ r : Reg, t = s.setReg r v := by
  rcases Nat.lt_or_ge n 32 with hn | hn
  · cases (s.hostSetRegister_of_lt hn v).symm.trans h
    exact ⟨_, rfl⟩
  · cases (s.hostSetRegister_of_gt hn v).symm.trans h

/-- A register write keeps the invariant: it leaves Memory, entry 0 and pc, and narrows what it stores. -/
theorem stateInv_setReg {s : State} (hs : StateInv s) (r : Reg) (v : Word) : StateInv (s.setReg r v) :=
  stateInv_of_writesOnly hs (s.setReg_writesOnly r v) (s.setReg_mem r v) (s.setReg_zeroEntry r v)
    (s.setReg_pc r v ▸ hs.pcEven)

/-- Placing bytes keeps the invariant: it leaves registers, pc and parameters, and the canonical form of Memory. -/
theorem stateInv_storeBytes {s : State} (hs : StateInv s) (a : Nat) (bs : List Byte) : StateInv (s.storeBytes a bs) where
  legalParameters := by rw [State.storeBytes_cfg]; exact hs.legalParameters
  memoryCanonical := State.storeBytes_wf hs.memoryCanonical a bs
  zeroEntry := by simp only [State.storeBytes_x]; exact hs.zeroEntry
  pcEven := by rw [State.storeBytes_pc]; exact hs.pcEven
  narrowRegs := fun r => by rw [State.storeBytes_cfg, State.storeBytes_getReg]; exact hs.narrowRegs r

/-- A load that completes keeps the invariant. -/
theorem stateInv_load {s t : State} {image : List Byte} (hs : StateInv s) (h : s.load image = .next t) : StateInv t := by
  obtain ⟨_, rfl⟩ := State.load_next h
  exact stateInv_storeBytes hs 0 image

/-- Settles O57: boot is a load into the reset state, and `set_register` is one register write. -/
theorem hostOperationsKeepTheInvariant : Obligations.HostOperationsKeepTheInvariant := by
  refine ⟨fun c image s hc h => stateInv_load (stateInv_resetWith hc) h, fun s t n v hs h => ?_,
    fun s t image hs h => stateInv_load hs h⟩
  obtain ⟨r, rfl⟩ := State.hostSetRegister_next h
  exact stateInv_setReg hs r v

/-- Settles O53: reset clears registers and pc, and placing the image leaves both. -/
theorem resetClearsRegistersAndPc : Obligations.ResetClearsRegistersAndPc := by
  refine ⟨State.getReg_resetWith _, State.resetWith_pc _, fun c r => ⟨State.getReg_resetWith c r, State.resetWith_pc c⟩,
    fun c image s h => ?_⟩
  obtain ⟨_, rfl⟩ := boot_next h
  exact ⟨fun r => by rw [State.storeBytes_getReg, State.getReg_resetWith], State.storeBytes_pc _ 0 image⟩

/-- Settles O54: no cell is listed after reset, so a read answers the fill byte wherever there is a byte. -/
theorem resetMemoryIsFillBytes : Obligations.ResetMemoryIsFillBytes :=
  fun c _ => ⟨State.readByte_resetWith c, readByte_error (s := State.resetWith c)⟩

end Sys2Proof.Machine
end
